-- ==== Sys2Proof/Word.lean ====
section
/-! DEFINITION. The word types of the core (00_scope.md R7, R8): every quantity is an unsigned bit vector. -/

namespace Sys2Proof

/-- One byte of the stream, of the carry buffer or of a command word's DATA field. -/
abbrev Byte := BitVec 8

/-- `WORD` of R7: the width of a lane, the seed, the digest and every datapath value. -/
abbrev Word := BitVec 32

/-- A command word, format CW (30_encoding.md R82). -/
abbrev CommandWord := BitVec 136

/-- A response word, format RW (30_encoding.md R90). -/
abbrev ResponseWord := BitVec 34

end Sys2Proof
end

