-- ==== Sys2Proof/Config.lean ====
section
/-! DEFINITION. What is fixed for the core (00_scope.md R7, 10_state.md R27), and the free values: what a
hardware reset leaves in the registers for which the spec gives no value (10_state.md R38, U2). -/

namespace Sys2Proof.Config

/-- `PRIME1`, decimal 2654435761 (R27). -/
def prime1 : Word := 0x9E3779B1#32

/-- `PRIME2`, decimal 2246822519 (R27). -/
def prime2 : Word := 0x85EBCA77#32

/-- `PRIME3`, decimal 3266489917 (R27). -/
def prime3 : Word := 0xC2B2AE3D#32

/-- `PRIME4`, decimal 668265263 (R27). -/
def prime4 : Word := 0x27D4EB2F#32

/-- `PRIME5`, decimal 374761393 (R27). -/
def prime5 : Word := 0x165667B1#32

/-- `BLOCK_BYTES` (R7): the bytes of one block. -/
def blockBytes : Nat := 16

/-- `CARRY_CAP` (R7, R25): the cells of the carry buffer, at indices `0 .. carryCap - 1`. -/
def carryCap : Nat := 16

/-- `BEAT_BYTES` (R7, R84): the most bytes one ABSORB carries. -/
def beatBytes : Nat := 16

/-- `2 ^ LEN_WIDTH` (R7, R24): the first stream length the counter `total_length` cannot hold. -/
def lengthLimit : Nat := 2 ^ 64

/-- FREE VALUE: `seed` after hardware reset number `k`. DESIGN CHOICE, log 1: the spec says "unspecified" (R38). -/
opaque unspecifiedSeed : (k : Nat) → Word

/-- FREE VALUE: `lane[i]` after hardware reset number `k`. DESIGN CHOICE, log 1 (R38). -/
opaque unspecifiedLane : (k i : Nat) → Word

/-- FREE VALUE: `total_length` after hardware reset number `k`. DESIGN CHOICE, log 1 (R38). -/
opaque unspecifiedTotalLength : (k : Nat) → BitVec 64

/-- FREE VALUE: `carry_len` after hardware reset number `k`. DESIGN CHOICE, log 1 (R38). -/
opaque unspecifiedCarryLen : (k : Nat) → BitVec 5

end Sys2Proof.Config
end

