-- ==== Sys2Proof/Syntax.lean ====
section
/-! DEFINITION. The commands of the core (30_encoding.md R86), one constructor each, and the reasons the
decoder rejects a command word (R87). -/

namespace Sys2Proof

/-- A decoded command. The two rows the opcode table gives ABSORB are two match patterns of one instruction
(DESIGN CHOICE, log 7), so `absorb` stands for both. -/
inductive Instr where
  /-- INIT, R130: load the seed `DATA[31:0]` and build the initial lanes. -/
  | init (seed : Word)
  /-- ABSORB, R140: take the chunk, first stream byte first. -/
  | absorb (chunk : List Byte)
  /-- FINALIZE, R170: answer the digest and re-initialise. -/
  | finalize
  deriving DecidableEq, Repr

/-- Why a command word is illegal (R87). The core reports both alike, as `ERR_ILLEGAL` (R222). -/
inductive Illegal where
  /-- `OP` is 000, 100, 101, 110 or 111. -/
  | reservedOp (op : BitVec 3)
  /-- `OP` is 010 and `LEN` is 17 to 31. -/
  | chunkTooLong (len : BitVec 5)
  deriving DecidableEq, Repr

end Sys2Proof
end

