-- ==== Sys2Proof/WellFormed.lean ====
section
/-! DEFINITION. Which commands a command word can carry (30_encoding.md R84, R85). -/

namespace Sys2Proof

/-- A command is well formed when some command word carries it: an ABSORB has a chunk of at most
`BEAT_BYTES` bytes (R84); every seed is legal (R85), and FINALIZE has no operand. -/
def Instr.wellFormed (i : Instr) : Bool :=
  match i with
  | .init _ => true
  | .absorb chunk => decide (chunk.length ≤ Config.beatBytes)
  | .finalize => true

/-- `Instr.wellFormed` as a proposition. -/
abbrev Instr.WellFormed (i : Instr) : Prop := i.wellFormed = true

end Sys2Proof
end

