-- ==== Sys2Proof/Decode.lean ====
section
/-! DEFINITION. The decoder (30_encoding.md R89) and the encoder (R82 to R88, canonical spelling). -/

namespace Sys2Proof

/-- The operation codes of R86. -/
def opInit : BitVec 3 := 0b001#3
def opAbsorb : BitVec 3 := 0b010#3
def opFinalize : BitVec 3 := 0b011#3

/-- `OP = cmd[135:133]` (R82). -/
def opField (w : CommandWord) : BitVec 3 := w.extractLsb' 133 3

/-- `LEN = cmd[132:128]` (R82). -/
def lenField (w : CommandWord) : BitVec 5 := w.extractLsb' 128 5

/-- `DATA = cmd[127:0]` (R82). -/
def dataField (w : CommandWord) : BitVec 128 := w.extractLsb' 0 128

/-- Byte lane `k` of DATA, `DATA[8k+7:8k]` (R83). -/
def dataLane (data : BitVec 128) (k : Nat) : Byte := data.extractLsb' (8 * k) 8

/-- The seed operand of INIT, `DATA[31:0]` (R85). -/
def seedOperand (data : BitVec 128) : Word := data.extractLsb' 0 32

/-- The chunk operand of ABSORB: the lanes `0 .. n-1` of DATA, in that order (R83). -/
def chunkOperand (data : BitVec 128) (n : Nat) : List Byte := (List.range n).map (dataLane data)

/-- The decoder, whole (R89): total, and independent of the state. -/
def decode (w : CommandWord) : Except Illegal Instr :=
  if opField w = opInit then
    .ok (.init (seedOperand (dataField w)))
  else if opField w = opAbsorb then
    if (lenField w).toNat ≤ Config.beatBytes then
      .ok (.absorb (chunkOperand (dataField w) (lenField w).toNat))
    else
      .error (.chunkTooLong (lenField w))
  else if opField w = opFinalize then
    .ok .finalize
  else
    .error (.reservedOp (opField w))

/-- The number a byte sequence stands for, first byte least significant (20_memory.md R52). -/
def littleEndian (bytes : List Byte) : Nat :=
  match bytes with
  | [] => 0
  | b :: bs => b.toNat + 2 ^ 8 * littleEndian bs

/-- The word `{OP, LEN, DATA}` (R82). -/
def commandWord (op : BitVec 3) (len : Nat) (data : Nat) : CommandWord :=
  op ++ BitVec.ofNat 5 len ++ BitVec.ofNat 128 data

/-- The canonical spelling of a command, every ignored bit zero (R86, last sentence). -/
def encode (i : Instr) : CommandWord :=
  match i with
  | .init seed => commandWord opInit 0 seed.toNat
  | .absorb chunk => commandWord opAbsorb chunk.length (littleEndian chunk)
  | .finalize => commandWord opFinalize 0 0

/-- The command word whose low `nbits` bits are those of `w`, the others zero. -/
def tableWord (nbits w : Nat) : CommandWord := BitVec.ofNat 136 (w % 2 ^ nbits)

/-- What the decoder reads from a word of the opcode table, `none` where it is illegal. -/
def decodeTableWord (nbits w : Nat) : Option Instr :=
  match decode (tableWord nbits w) with
  | .ok i => some i
  | .error _ => none

end Sys2Proof
end

