-- ==== Sys2Proof/Machine/Arith.lean ====
section
/-! DEFINITION. The 32-bit unsigned arithmetic facility (40_arith32.md): total functions without flags or
errors (R118).

The sum and the product are written second operand first (DESIGN CHOICE, log 8). Both commute (R118 b), so the
number is the rule's; where the second operand is one of the constants, Lean's kernel would otherwise try to count
up to it. -/

namespace Sys2Proof.Machine

/-- `ADD32` (R110): the carry out is discarded. -/
def add32 (a b : Word) : Word := b + a

/-- `SUB32` (R111): the borrow is discarded. -/
def sub32 (a b : Word) : Word := a - b

/-- `MUL32` (R112): the low 32 bits of the product. -/
def mul32 (a b : Word) : Word := b * a

/-- `ROTL32` (R113), by `r mod 32` as the rule asks of a definition on all `r`. -/
def rotl32 (x : Word) (r : Nat) : Word := x.rotateLeft r

/-- `XOR32` (R114). -/
def xor32 (a b : Word) : Word := a ^^^ b

/-- `SHR32` (R115): zeros enter at the top. -/
def shr32 (x : Word) (n : Nat) : Word := x >>> n

/-- `zext_32` of a byte (R117). -/
def zext32 (b : Byte) : Word := b.setWidth 32

end Sys2Proof.Machine
end

