-- ==== Sys2Proof/Machine/Operands.lean ====
section
/-! DEFINITION. How bytes become the 32-bit operands of the datapath (20_memory.md R52, R53, R64). -/

namespace Sys2Proof.Machine

/-- The 32-bit word four bytes in stream order stand for: little-endian, with no switch (R52). -/
def wordOfBytes (bytes : List Byte) : Word := BitVec.ofNat 32 (littleEndian bytes)

/-- `LE32(b0, b1, b2, b3)` (R116): `b0` comes first in the stream. -/
def le32 (b0 b1 b2 b3 : Byte) : Word := wordOfBytes [b0, b1, b2, b3]

/-- Word `i` of a 16-byte block: its bytes `4i .. 4i+3` (R151). -/
def blockWord (blk : List Byte) (i : Nat) : Word := wordOfBytes ((blk.drop (4 * i)).take 4)

end Sys2Proof.Machine
end

