-- ==== Sys2Proof/Machine/State.lean ====
section
/-! DEFINITION. What the core holds (10_state.md R20), what the host has presented and what it has been
answered, the reasons a step can stop, and the state after hardware reset (R38). -/

namespace Sys2Proof.Machine

/-- The carry buffer as (index, byte) pairs in one form: indices strictly rising, all below 16. A cell that
is not listed holds no value (stale, R36, or never written, R38; log 2). -/
abbrev Memory := List Host.Cell

/-- The one form of a carry buffer. -/
abbrev Memory.wf (m : Memory) : Prop :=
  m.Pairwise (fun x y => x.1 < y.1) ∧ ∀ c ∈ m, c.1 < Config.carryCap

/-- Why the MODEL stops. No state that meets the invariant of Sys2Proof/Safety.lean reaches either. -/
inductive Fault where
  /-- Raised by `memRead1`, `memRead4` and `memReadBlock` when the carry cell at `index` holds no value. Safe: the
  core would read some byte and go on (log 2). -/
  | staleCarryRead (index : Nat)
  /-- Raised by every carry access at an index outside 0..15, a cell R50 says does not exist. Safe. -/
  | noCarryCell (index : Nat)
  deriving DecidableEq, Repr

/-- What the MODEL declines to do. -/
inductive Refusal where
  /-- An instruction that has no meaning yet: raised by `exec` alone. Safe. -/
  | notModelled (mnemonic : String)
  /-- Raised by ABSORB when `total_length` would reach 2^64: outside the spec, "a model refuses it" (D14, U1). Safe
  (log 5). -/
  | lengthCounterOverflow
  deriving DecidableEq, Repr

/-- What the host can do to the core at rest (30_encoding.md R80, 70_reset_and_hazards.md R271). -/
inductive HostEvent where
  /-- Present a command word, which the core accepts (R81). -/
  | command (word : CommandWord)
  /-- Assert `rst` (R250). -/
  | hardwareReset
  deriving DecidableEq, Repr

/-- The response codes of R90. -/
inductive RspCode where
  | ok
  | digest
  | errIllegal
  | errUninit
  deriving DecidableEq, Repr

/-- The four lane accumulators `lane[1]` to `lane[4]` (R21). -/
structure Lanes where
  lane1 : Word
  lane2 : Word
  lane3 : Word
  lane4 : Word
  deriving DecidableEq, Repr

/-- The architectural state of the core, R20; the constants `PRIME1..5` are in Config (R37). -/
structure Hasher where
  /-- The status flag `inited` (R28). -/
  inited : Bool
  /-- The control register `seed` (R23). -/
  seed : Word
  /-- `lane[1..4]` (R21). -/
  lanes : Lanes
  /-- The byte counter `total_length` (R24). -/
  totalLength : BitVec 64
  /-- The fill index `carry_len` (R26). -/
  carryLen : BitVec 5
  /-- The carry buffer `carry[0..15]` (R25): the cells that hold a value. -/
  carry : Memory
  deriving DecidableEq, Repr

/-- The machine: the core, and at its ports the host's list of events and the responses given. -/
structure State where
  /-- The architectural state (R20). -/
  hasher : Hasher
  /-- MODEL's own: what the host has yet to present, first event first (R271; log 3). -/
  inputs : List HostEvent
  /-- MODEL's own: the response words presented so far, oldest first (R40, R91; log 4). -/
  responses : List ResponseWord
  /-- MODEL's own: the number of the last hardware reset, the index of its free values (log 1). -/
  resetCount : Nat
  deriving DecidableEq, Repr

/-- The core after hardware reset number `k` (R38, R250): `inited` is 0; every other register holds a free
value (log 1), and no carry cell holds a value (log 2). -/
def Hasher.afterReset (k : Nat) : Hasher where
  inited := false
  seed := Config.unspecifiedSeed k
  lanes :=
    { lane1 := Config.unspecifiedLane k 1, lane2 := Config.unspecifiedLane k 2,
      lane3 := Config.unspecifiedLane k 3, lane4 := Config.unspecifiedLane k 4 }
  totalLength := Config.unspecifiedTotalLength k
  carryLen := Config.unspecifiedCarryLen k
  carry := []

/-- The machine right after hardware reset, with nothing presented and nothing answered (R38, R250, R251). -/
def State.reset : State where
  hasher := Hasher.afterReset 0
  inputs := []
  responses := []
  resetCount := 0

end Sys2Proof.Machine
end

