-- ==== Sys2Proof/Machine/Ops.lean ====
section
/-! DEFINITION. The shared operations: the carry buffer, `InitState`, `respond`, `raise`, the hardware reset. -/

namespace Sys2Proof.Machine

/-- The byte a carry cell holds, `none` where it holds no value (R36). -/
def readCell (m : Memory) (a : Nat) : Option Byte :=
  match m with
  | [] => none
  | (k, b) :: rest => if k = a then some b else readCell rest a

/-- Put a byte into a carry cell, keeping the cells in rising order. -/
def writeCell (m : Memory) (a : Nat) (b : Byte) : Memory :=
  match m with
  | [] => [(a, b)]
  | (k, c) :: rest =>
    if a < k then (a, b) :: (k, c) :: rest
    else if a = k then (a, b) :: rest
    else (k, c) :: writeCell rest a b

/-- Forget the cells at index `n` and above: they are stale (R36). -/
def keepBelow (m : Memory) (n : Nat) : Memory := m.filter (fun c => c.1 < n)

/-- The byte at carry index `a`, for the reads below (R57: no rule reaches either stop). -/
def fetchCell (m : Memory) (a : Nat) : Except Fault Byte :=
  if a < Config.carryCap then
    match readCell m a with
    | some b => .ok b
    | none => .error (.staleCarryRead a)
  else .error (.noCarryCell a)

/-- The bytes at carry indices `a .. a+n-1`. -/
def fetchCells (m : Memory) (a n : Nat) : Except Fault (List Byte) :=
  match n with
  | 0 => .ok []
  | n + 1 => do
    let b ← fetchCell m a
    let bs ← fetchCells m (a + 1) n
    return b :: bs

/-- `MemRead(a, 1) = zext_32(carry[a])` (R9, R53). -/
def memRead1 (m : Memory) (a : Nat) : Except Fault Word := do
  let b ← fetchCell m a
  return zext32 b

/-- `MemRead(a, 4) = LE32(carry[a], .., carry[a+3])` (R9, R52). -/
def memRead4 (m : Memory) (a : Nat) : Except Fault Word := do
  let bs ← fetchCells m a 4
  return wordOfBytes bs

/-- The read of the whole filled carry buffer as one block, `carry[0 .. 16)` (R55, R144). -/
def memReadBlock (m : Memory) : Except Fault (List Byte) := fetchCells m 0 Config.blockBytes

/-- `MemWrite(a, |bytes|, bytes)`: the bytes to carry indices `a ..`, in order (R9). -/
def memWrite (m : Memory) (a : Nat) (bytes : List Byte) : Except Fault Memory :=
  match bytes with
  | [] => .ok m
  | b :: bs =>
    if a < Config.carryCap then memWrite (writeCell m a b) (a + 1) bs
    else .error (.noCarryCell a)

/-- `carry_len <- n`: the cells at `n` and above are stale from here on (R26, R36). -/
def setCarryLen (h : Hasher) (n : Nat) : Hasher :=
  { h with carryLen := BitVec.ofNat 5 n, carry := keepBelow h.carry n }

/-- The lanes a seed determines (R131). -/
def initLanes (s : Word) : Lanes where
  lane1 := add32 (add32 s Config.prime1) Config.prime2
  lane2 := add32 s Config.prime2
  lane3 := s
  lane4 := sub32 s Config.prime1

/-- `InitState(s)` (R131): the state a seed determines. Every carry cell becomes stale. -/
def initState (s : Word) : Hasher where
  inited := true
  seed := s
  lanes := initLanes s
  totalLength := 0
  carryLen := 0
  carry := []

/-- The two bits of a response code (R90). -/
def rspBits (c : RspCode) : BitVec 2 :=
  match c with
  | .ok => 0b00#2
  | .digest => 0b01#2
  | .errIllegal => 0b10#2
  | .errUninit => 0b11#2

/-- The response word `{code, value}` (R90). -/
def responseWord (c : RspCode) (value : Word) : ResponseWord := rspBits c ++ value

/-- `respond(code, value)` (R90): one response word more at the port. -/
def respond (s : State) (c : RspCode) (value : Word) : State :=
  { s with responses := s.responses ++ [responseWord c value] }

/-- `raise <Error>` (R224), the core's one way to report an error: no state element changes, the answer is
`{<Error code>, 0}`, and the core is ready for the next command. There is no return from it (R228). -/
def raiseError (s : State) (c : RspCode) : State := respond s c 0

/-- The hardware reset event (R250): a new reset number, and the registers it leaves. No response. -/
def hardwareReset (s : State) : State :=
  { s with hasher := Hasher.afterReset (s.resetCount + 1), resetCount := s.resetCount + 1 }

/-- What the host does next, and the machine once it has done so; `none` when it does nothing (R81). -/
def nextEvent (s : State) : Option (HostEvent × State) :=
  match s.inputs with
  | [] => none
  | e :: rest => some (e, { s with inputs := rest })

end Sys2Proof.Machine
end

