-- ==== Sys2Proof/Machine/Flags.lean ====
section
/-! DEFINITION. The one flag, `inited` (10_state.md R28, R34), and the check two commands make of it. -/

namespace Sys2Proof.Machine

/-- `if inited == 0: raise ERR_UNINIT` (R140, R170, R223), before the command does anything. -/
def whenInited (s : State) (go : Host.Outcome State Fault Refusal) : Host.Outcome State Fault Refusal :=
  if s.hasher.inited then go else .next (raiseError s .errUninit)

/-- The end of a command: the hasher it computed and its response, or the model's fault. -/
def finish (s : State) (result : Except Fault Hasher) (c : RspCode) (value : Word) :
    Host.Outcome State Fault Refusal :=
  match result with
  | .ok h => .next (respond { s with hasher := h } c value)
  | .error f => .fault f

end Sys2Proof.Machine
end

