-- ==== Sys2Proof/Machine/Absorb.lean ====
section
/-! DEFINITION. The ABSORB command: buffering, scheduling and the block mixer (42_absorb.md). -/

namespace Sys2Proof.Machine

/-- `ROUND(acc, w)` (R150). -/
def roundLane (acc w : Word) : Word := mul32 (rotl32 (add32 acc (mul32 w Config.prime2)) 13) Config.prime1

/-- `BLOCKMIX(blk)` (R151) on a sequence of 16 bytes: word `i` goes to `lane[i+1]`. -/
def blockMix (blk : List Byte) (l : Lanes) : Lanes where
  lane1 := roundLane l.lane1 (blockWord blk 0)
  lane2 := roundLane l.lane2 (blockWord blk 1)
  lane3 := roundLane l.lane3 (blockWord blk 2)
  lane4 := roundLane l.lane4 (blockWord blk 3)

/-- The loop of step 5 (R145): mix `q` successive 16-byte windows, in stream order. -/
def mixBlocks (q : Nat) (bytes : List Byte) (l : Lanes) : Lanes :=
  match q with
  | 0 => l
  | q + 1 => mixBlocks q (bytes.drop Config.blockBytes) (blockMix (bytes.take Config.blockBytes) l)

/-- Step 2 (R142): the whole chunk length, at once. -/
def addLength (h : Hasher) (n : Nat) : Hasher :=
  { h with totalLength := h.totalLength + BitVec.ofNat 64 n }

/-- Step 3 (R143): append the chunk at the fill index; no lane is touched. -/
def absorbBuffer (b : List Byte) (h : Hasher) : Except Fault Hasher := do
  let m ← memWrite h.carry h.carryLen.toNat b
  return setCarryLen { h with carry := m } (h.carryLen.toNat + b.length)

/-- Step 4 (R144): when the carry is not empty, fill it to 16 bytes from the chunk, mix it as one block and
clear it. Answers what is left of the chunk, the bytes from the cursor on. -/
def absorbComplete (b : List Byte) (h : Hasher) : Except Fault (Hasher × List Byte) :=
  if 0 < h.carryLen.toNat then do
    let k := Config.blockBytes - h.carryLen.toNat
    let m ← memWrite h.carry h.carryLen.toNat (b.take k)
    let blk ← memReadBlock m
    return (setCarryLen { h with lanes := blockMix blk h.lanes, carry := m } 0, b.drop k)
  else
    return (h, b)

/-- Step 6 (R146): the 0 to 15 bytes left become the new carry, from index 0. -/
def absorbKeep (rest : List Byte) (h : Hasher) : Except Fault Hasher := do
  let m ← memWrite h.carry 0 rest
  return setCarryLen { h with carry := m } rest.length

/-- Steps 4 to 6 (R144, R145, R146): complete the carried block, mix the whole blocks of what is left, keep
the rest. -/
def absorbBlocks (b : List Byte) (h : Hasher) : Except Fault Hasher := do
  let (h, rest) ← absorbComplete b h
  let q := rest.length / Config.blockBytes
  absorbKeep (rest.drop (Config.blockBytes * q)) { h with lanes := mixBlocks q rest h.lanes }

/-- `Absorb(b)` (R147) for a byte sequence of any length; a beat is its restriction to 16 bytes (R95). The
comparison of step 3 is on the mathematical sum (R143). -/
def absorb (b : List Byte) (h : Hasher) : Except Fault Hasher :=
  if b.length = 0 then .ok h
  else if h.carryLen.toNat + b.length < Config.blockBytes then absorbBuffer b (addLength h b.length)
  else absorbBlocks b (addLength h b.length)

/-- The precondition of R147: the stream stays below 2^64 bytes (R24, D14). -/
def lengthFits (h : Hasher) (b : List Byte) : Bool := h.totalLength.toNat + b.length < Config.lengthLimit

/-- ABSORB (R140, R156). A chunk that would take the counter to 2^64 is outside the spec: the model has no
step for it (U1; log 5). -/
def execAbsorb (chunk : List Byte) (s : State) : Host.Outcome State Fault Refusal :=
  whenInited s
    (if lengthFits s.hasher chunk then finish s (absorb chunk s.hasher) .ok 0
     else .refused .lengthCounterOverflow)

end Sys2Proof.Machine
end

