-- ==== Sys2Proof/Machine/Finalize.lean ====
section
/-! DEFINITION. The FINALIZE command: convergence, length fold, tail folding, avalanche (43_finalize.md). -/

namespace Sys2Proof.Machine

/-- `CONVERGE()` (R171). -/
def converge (l : Lanes) : Word :=
  add32 (add32 (add32 (rotl32 l.lane1 1) (rotl32 l.lane2 7)) (rotl32 l.lane3 12)) (rotl32 l.lane4 18)

/-- `SHORTSEED()` (R172): it reads `seed`, not a lane. -/
def shortSeed (seed : Word) : Word := add32 seed Config.prime5

/-- Step 1 (R173): the test is on the whole 64-bit counter (D15). -/
def startValue (h : Hasher) : Word :=
  if 16 ≤ h.totalLength.toNat then converge h.lanes else shortSeed h.seed

/-- `ADDLEN(acc)` (R174): the low 32 bits of the counter. -/
def addLen (acc : Word) (totalLength : BitVec 64) : Word := add32 acc (totalLength.extractLsb' 0 32)

/-- `TAILWORD(acc, w)` (R175). -/
def tailWord (acc w : Word) : Word := mul32 (rotl32 (add32 acc (mul32 w Config.prime3)) 17) Config.prime4

/-- `TAILBYTE(acc, b)` (R176). -/
def tailByte (acc b : Word) : Word := mul32 (rotl32 (add32 acc (mul32 b Config.prime5)) 11) Config.prime1

/-- Pass a of step 3 (R177): `n` tail words from carry index `tcur` upward. -/
def foldTailWords (m : Memory) (n : Nat) (acc : Word) (tcur : Nat) : Except Fault Word :=
  match n with
  | 0 => .ok acc
  | n + 1 => do
    let w ← memRead4 m tcur
    foldTailWords m n (tailWord acc w) (tcur + 4)

/-- Pass b of step 3 (R177): `n` tail bytes from carry index `tcur` upward. -/
def foldTailBytes (m : Memory) (n : Nat) (acc : Word) (tcur : Nat) : Except Fault Word :=
  match n with
  | 0 => .ok acc
  | n + 1 => do
    let b ← memRead1 m tcur
    foldTailBytes m n (tailByte acc b) (tcur + 1)

/-- Step 3 (R177): `floor(t / 4)` words, then `t mod 4` bytes, with `t = carry_len`. -/
def foldTail (h : Hasher) (acc : Word) : Except Fault Word := do
  let t := h.carryLen.toNat
  let acc ← foldTailWords h.carry (t / 4) acc 0
  foldTailBytes h.carry (t % 4) acc (4 * (t / 4))

/-- `AVALANCHE(acc)` (R178). -/
def avalanche (a0 : Word) : Word :=
  let a1 := xor32 a0 (shr32 a0 15)
  let a2 := mul32 a1 Config.prime2
  let a3 := xor32 a2 (shr32 a2 13)
  let a4 := mul32 a3 Config.prime3
  xor32 a4 (shr32 a4 16)

/-- The digest (R170 steps 1 to 4, R181). -/
def digest (h : Hasher) : Except Fault Word := do
  let acc ← foldTail h (addLen (startValue h) h.totalLength)
  return avalanche acc

/-- FINALIZE (R170): the digest of the state before, the state re-initialised under the same seed (R179),
the answer `{DIGEST, acc}` (R180). -/
def execFinalize (s : State) : Host.Outcome State Fault Refusal :=
  whenInited s
    (match digest s.hasher with
     | .ok acc => .next (respond { s with hasher := initState s.hasher.seed } .digest acc)
     | .error f => .fault f)

end Sys2Proof.Machine
end

