-- ==== Sys2Proof/Machine/Init.lean ====
section
/-! DEFINITION. The INIT command (41_init.md). -/

namespace Sys2Proof.Machine

/-- INIT (R130): legal in every state; the answer is always `{OK, 0}` (R134). -/
def execInit (seed : Word) (s : State) : Host.Outcome State Fault Refusal :=
  .next (respond { s with hasher := initState seed } .ok 0)

end Sys2Proof.Machine
end

