-- ==== Sys2Proof/Machine/Dispatch.lean ====
section
/-! DEFINITION. One arm per command (30_encoding.md R86). -/

namespace Sys2Proof.Machine

def exec (i : Instr) (s : State) : Host.Outcome State Fault Refusal :=
  match i with
  | .init seed => Sys2Proof.Machine.execInit seed s
  | .absorb chunk => Sys2Proof.Machine.execAbsorb chunk s
  | .finalize => Sys2Proof.Machine.execFinalize s

end Sys2Proof.Machine
end

