-- ==== Sys2Proof/Machine/Step.lean ====
section
/-! DEFINITION. One step: one event of the host (20_memory.md R60, 30_encoding.md R81, R89). -/

namespace Sys2Proof.Machine

/-- One step. With nothing presented the core stays as it is (R81). A hardware reset is R250. A command word
is decoded, without a look at the state; an illegal one is answered `ERR_ILLEGAL` (R222, R225). -/
def step (s : State) : Host.Outcome State Fault Refusal :=
  match nextEvent s with
  | none => .next s
  | some (.hardwareReset, t) => .next (hardwareReset t)
  | some (.command w, t) =>
    match decode w with
    | .ok i => exec i t
    | .error _ => .next (raiseError t .errIllegal)

/-- The machine with the table's word at the head of what the host presents (log 3). -/
def State.withFetchWord (s : State) (nbits w : Nat) : State :=
  { s with inputs := .command (tableWord nbits w) :: s.inputs }

end Sys2Proof.Machine
end

