-- ==== Sys2Proof/Machine/Pseudo.lean ====
section
/-! DEFINITION. The host's side of the port: the assembler's lines and pseudo-operations (30_encoding.md R93,
R94, R95) and the digest function they compute (44_oneshot_and_laws.md R200, R201). -/

namespace Sys2Proof.Machine

/-- One line of assembly (R93, R94). Seeds are unsigned numbers of any size; bytes are octets (log 9). -/
inductive AsmLine where
  | init (seed : Nat)
  | absorb (bytes : List Byte)
  | finalize
  | new (seed : Nat)
  | absorbN (bytes : List Byte)
  | hash (seed : Nat) (bytes : List Byte)
  deriving DecidableEq, Repr

/-- The assembler takes a seed modulo 2^32 (R93). -/
def asmSeed (seed : Nat) : Word := BitVec.ofNat 32 seed

/-- The greedy split of R95: `b[0..16)`, `b[16..32)`, .., and a last chunk of `n mod 16` bytes. -/
def beats (b : List Byte) : List (List Byte) :=
  (List.range ((b.length + 15) / Config.beatBytes)).map
    (fun i => (b.drop (Config.beatBytes * i)).take Config.beatBytes)

/-- The commands a line stands for (R94). -/
def expand (line : AsmLine) : List Instr :=
  match line with
  | .init seed => [.init (asmSeed seed)]
  | .absorb bytes => [.absorb bytes]
  | .finalize => [.finalize]
  | .new seed => [.init (asmSeed seed)]
  | .absorbN bytes => (beats bytes).map .absorb
  | .hash seed bytes => .init (asmSeed seed) :: ((beats bytes).map .absorb ++ [.finalize])

/-- The events by which the host presents commands, in order (R60). -/
def present (commands : List Instr) : List HostEvent := commands.map (fun i => .command (encode i))

/-- The tail loops of R201 on a byte sequence: words while four bytes remain, then bytes. -/
def foldTailList (acc : Word) (bytes : List Byte) : Word :=
  match bytes with
  | b0 :: b1 :: b2 :: b3 :: rest => foldTailList (tailWord acc (le32 b0 b1 b2 b3)) rest
  | rest => rest.foldl (fun acc b => tailByte acc (zext32 b)) acc

/-- `XXH32(s, d)` (R201), written without reference to commands; defined for `|d| < 2^64` (R209). -/
def xxh32 (s : Word) (d : List Byte) : Word :=
  let q := d.length / 16
  let v := mixBlocks q d
    { lane1 := add32 s 0x24234428#32, lane2 := add32 s 0x85EBCA77#32, lane3 := s,
      lane4 := add32 s 0x61C8864F#32 }
  let a := if 16 ≤ d.length then converge v else add32 s Config.prime5
  avalanche (foldTailList (add32 a (BitVec.ofNat 32 d.length)) (d.drop (16 * q)))

end Sys2Proof.Machine
end

