-- ==== Sys2Proof/Safety.lean ====
section
/-! DEFINITION. The terms claims use: the invariant of the state at rest (10_state.md R29 to R31, R237), the
phases (R32), and runs of the machine (70_reset_and_hazards.md R271). -/

namespace Sys2Proof.Machine

/-- The valid carry bytes, in stream order (R25). -/
def carryBytes (h : Hasher) : List Byte := h.carry.map Prod.snd

/-- Consecutive bytes as carry cells, from index `a` upward. -/
def cellsFrom (a : Nat) (bytes : List Byte) : Memory :=
  match bytes with
  | [] => []
  | b :: bs => (a, b) :: cellsFrom (a + 1) bs

/-- The invariant at rest. The carry buffer has its one form; and once `inited` is 1, `carry_len` is
`total_length mod 16` (R30), exactly the cells below `carry_len` hold a value (R36), and a stream under 16
bytes has left the initial lanes as they were (R31). -/
abbrev Hasher.wf (h : Hasher) : Prop :=
  h.carry.wf ∧
  (h.inited = true →
    h.carryLen.toNat = h.totalLength.toNat % 16 ∧
    h.carry.map Prod.fst = List.range h.carryLen.toNat ∧
    (h.totalLength.toNat < 16 → h.lanes = initLanes h.seed))

/-- The invariant of the machine: the host's lists and the reset number are unconstrained. -/
abbrev State.Inv (s : State) : Prop := s.hasher.wf

/-- The phases of R32: names for predicates on the state. -/
inductive Phase where
  | uninit
  | empty
  | short
  | long
  deriving DecidableEq, Repr

/-- The phase a core at rest is in (R32). -/
def phase (h : Hasher) : Phase :=
  if h.inited = false then .uninit
  else if h.totalLength.toNat = 0 then .empty
  else if h.totalLength.toNat < 16 then .short
  else .long

/-- The state after the stream `d` under seed `s` (R30): the mix of its whole blocks, and the rest of it in
the carry. -/
def streamState (s : Word) (d : List Byte) : Hasher where
  inited := true
  seed := s
  lanes := mixBlocks (d.length / 16) d (initLanes s)
  totalLength := BitVec.ofNat 64 d.length
  carryLen := BitVec.ofNat 5 (d.length % 16)
  carry := cellsFrom 0 (d.drop (16 * (d.length / 16)))

/-- Two machines that differ at most in what an uninitialised core holds beside `inited` (U2). -/
abbrev SameOutside (s t : State) : Prop :=
  s.inputs = t.inputs ∧ s.responses = t.responses ∧ s.hasher.inited = t.hasher.inited ∧
  (s.hasher.inited = true → s.hasher = t.hasher)

/-- `n` steps from `s`, stopping at the first fault or refusal (70_reset_and_hazards.md R271). -/
def run (n : Nat) (s : State) : Host.Outcome State Fault Refusal :=
  match n with
  | 0 => .next s
  | n + 1 =>
    match step s with
    | .next t => run n t
    | .fault f => .fault f
    | .refused r => .refused r

end Sys2Proof.Machine
end

