-- ==== Sys2Proof/Certificates/Slice0/Obligations.lean ====
section
/-! DEFINITION. The statements for the provers. Each docstring names the rule of spec/ it formalises. `inputs`,
`responses` and `resetCount` are the model's own fields (logs 3, 4, 1); a carry cell at or above `carry_len`
holds no value in the model (log 2). -/

open Sys2Proof Sys2Proof.Machine

/-! ### Encoding and decoding -/

/-- R89: what each of the 2^136 words decodes to, by its own bits. -/
def Obligations.DecodeReadsTheFields : Prop :=
  ∀ w : CommandWord,
    (w.extractLsb' 133 3 = 0b001#3 → decode w = .ok (.init (w.extractLsb' 0 32))) ∧
    (w.extractLsb' 133 3 = 0b010#3 → (w.extractLsb' 128 5).toNat ≤ 16 →
      decode w = .ok (.absorb
        ((List.range (w.extractLsb' 128 5).toNat).map (fun k => w.extractLsb' (8 * k) 8)))) ∧
    (w.extractLsb' 133 3 = 0b011#3 → decode w = .ok .finalize) ∧
    (w.extractLsb' 133 3 = 0b010#3 → 16 < (w.extractLsb' 128 5).toNat → ∃ e, decode w = .error e) ∧
    (w.extractLsb' 133 3 ≠ 0b001#3 → w.extractLsb' 133 3 ≠ 0b010#3 → w.extractLsb' 133 3 ≠ 0b011#3 →
      ∃ e, decode w = .error e)

/-- R86, the match and mask rows, which are the rows of spec/opcode_table.json: they say exactly what the
decoder reads, and a word that matches none of the four is illegal. -/
def Obligations.OpcodeTableMatchesTheDecoder : Prop :=
  ∀ w : CommandWord,
    ((∃ s, decode w = .ok (.init s)) ↔
      w &&& 0xE000000000000000000000000000000000#136 = 0x2000000000000000000000000000000000#136) ∧
    ((∃ b, decode w = .ok (.absorb b)) ↔
      w &&& 0xF000000000000000000000000000000000#136 = 0x4000000000000000000000000000000000#136 ∨
      w &&& 0xFF00000000000000000000000000000000#136 = 0x5000000000000000000000000000000000#136) ∧
    (decode w = .ok .finalize ↔
      w &&& 0xE000000000000000000000000000000000#136 = 0x6000000000000000000000000000000000#136) ∧
    ((∃ e, decode w = .error e) ↔
      w &&& 0xE000000000000000000000000000000000#136 ≠ 0x2000000000000000000000000000000000#136 ∧
      w &&& 0xF000000000000000000000000000000000#136 ≠ 0x4000000000000000000000000000000000#136 ∧
      w &&& 0xFF00000000000000000000000000000000#136 ≠ 0x5000000000000000000000000000000000#136 ∧
      w &&& 0xE000000000000000000000000000000000#136 ≠ 0x6000000000000000000000000000000000#136)

/-- R88: bits the selected command does not use make no word illegal and change no command. -/
def Obligations.IgnoredBitsHaveNoEffect : Prop :=
  ∀ w w' : CommandWord,
    (opField w = 0b001#3 → opField w' = 0b001#3 → w.extractLsb' 0 32 = w'.extractLsb' 0 32 →
      decode w = decode w' ∧ ∃ i, decode w = .ok i) ∧
    (opField w = 0b010#3 → opField w' = 0b010#3 → lenField w = lenField w' → (lenField w).toNat ≤ 16 →
      (∀ k < (lenField w).toNat, w.extractLsb' (8 * k) 8 = w'.extractLsb' (8 * k) 8) →
      decode w = decode w' ∧ ∃ i, decode w = .ok i) ∧
    (opField w = 0b011#3 → opField w' = 0b011#3 → decode w = decode w' ∧ ∃ i, decode w = .ok i)

/-- Every well-formed command survives its own canonical spelling, with every operand. -/
def Obligations.DecodeOfEncodeIsTheCommand : Prop :=
  ∀ i : Instr, i.WellFormed → decode (encode i) = .ok i

/-- R86, last sentence: the canonical spelling has every ignored bit zero. -/
def Obligations.CanonicalWordsHaveIgnoredBitsZero : Prop :=
  (∀ s : Word, encode (.init s) = BitVec.ofNat 136 (0x20 * 2 ^ 128 + s.toNat)) ∧
  (∀ b : List Byte, b.length ≤ 16 →
    (encode (.absorb b)).extractLsb' 128 8 = BitVec.ofNat 8 (0x40 + b.length) ∧
    ∀ k, b.length ≤ k → k < 16 → (encode (.absorb b)).extractLsb' (8 * k) 8 = 0#8) ∧
  encode .finalize = BitVec.ofNat 136 (0x60 * 2 ^ 128)

/-- R96: the worked encodings, each word written out from the spec. -/
def Obligations.WorkedEncodingsDecode : Prop :=
  encode (.init 0) = 0x2000000000000000000000000000000000#136 ∧
  encode (.init 1) = 0x2000000000000000000000000000000001#136 ∧
  encode (.init 0x9E3779B1#32) = 0x200000000000000000000000009E3779B1#136 ∧
  encode (.absorb []) = 0x4000000000000000000000000000000000#136 ∧
  encode (.absorb [0x61#8]) = 0x4100000000000000000000000000000061#136 ∧
  encode (.absorb [0x74#8, 0x65#8, 0x73#8, 0x74#8]) = 0x4400000000000000000000000074736574#136 ∧
  encode (.absorb [0x00#8, 0x01#8, 0x02#8, 0x03#8, 0x04#8, 0x05#8, 0x06#8, 0x07#8,
    0x08#8, 0x09#8, 0x0A#8, 0x0B#8, 0x0C#8, 0x0D#8, 0x0E#8, 0x0F#8]) =
      0x500F0E0D0C0B0A09080706050403020100#136 ∧
  encode .finalize = 0x6000000000000000000000000000000000#136 ∧
  decode 0x0000000000000000000000000000000000#136 = .error (.reservedOp 0b000#3) ∧
  decode 0x5100000000000000000000000000000000#136 = .error (.chunkTooLong 17#5) ∧
  decode 0x3FFFFFFFFFFFFFFFFFFFFFFFFF00000001#136 = .ok (.init 1) ∧
  decode 0x4400000000000000000000000074736574#136 = .ok (.absorb [0x74#8, 0x65#8, 0x73#8, 0x74#8]) ∧
  decode 0x6000000000000000000000000000000000#136 = .ok .finalize

/-- R83: the chunk is the lanes below `LEN` in order, the others do not matter, and the 32-bit word `i` of a
full chunk is `DATA[32i+31:32i]`. -/
def Obligations.ChunkBytesAreTheDataLanes : Prop :=
  ∀ data : BitVec 128,
    (∀ n ≤ 16, (chunkOperand data n).length = n ∧
      ∀ k < n, (chunkOperand data n)[k]? = some (data.extractLsb' (8 * k) 8)) ∧
    (∀ n ≤ 16, ∀ data' : BitVec 128,
      (∀ k < n, data.extractLsb' (8 * k) 8 = data'.extractLsb' (8 * k) 8) →
      chunkOperand data n = chunkOperand data' n) ∧
    (∀ i < 4, blockWord (chunkOperand data 16) i = data.extractLsb' (32 * i) 32)

/-! ### One step -/

/-- A step runs the command that the word at the head of the host's list decodes to, on the machine from which
that word has been taken. -/
def Obligations.StepRunsTheDecodedCommand : Prop :=
  ∀ (s : State) (rest : List HostEvent),
    (∀ w i, s.inputs = .command w :: rest → decode w = .ok i → step s = exec i { s with inputs := rest }) ∧
    (∀ i : Instr, i.WellFormed → s.inputs = .command (encode i) :: rest →
      step s = exec i { s with inputs := rest }) ∧
    (∀ nbits w i, decodeTableWord nbits w = some i → step (s.withFetchWord nbits w) = exec i s)

/-- R222: an illegal word changes no state element, in any state, and is answered `{ERR_ILLEGAL, 0}`. -/
def Obligations.IllegalWordsAnswerErrIllegal : Prop :=
  ∀ (s : State) (w : CommandWord) (rest : List HostEvent) (e : Illegal),
    s.inputs = .command w :: rest → decode w = .error e →
    step s = .next { s with inputs := rest, responses := s.responses ++ [0b10#2 ++ 0#32] }

/-- R223 and R224: a command before the first INIT changes no state element and is answered
`{ERR_UNINIT, 0}`; INIT is never refused. -/
def Obligations.UninitialisedCommandsAnswerErrUninit : Prop :=
  ∀ s : State, s.hasher.inited = false →
    (∀ b : List Byte, exec (.absorb b) s = .next { s with responses := s.responses ++ [0b11#2 ++ 0#32] }) ∧
    exec .finalize s = .next { s with responses := s.responses ++ [0b11#2 ++ 0#32] } ∧
    (∀ seed : Word, ∃ h : Hasher, h.inited = true ∧
      exec (.init seed) s = .next { s with hasher := h, responses := s.responses ++ [0b00#2 ++ 0#32] })

/-- A machine to which nothing is presented stays as it is (R81: a cycle in which no command is accepted
changes no architectural state; that a step may be idle is log 3). -/
def Obligations.IdleStepChangesNothing : Prop :=
  ∀ s : State, s.inputs = [] → step s = .next s

/-- R250 and R252: a hardware reset clears `inited` and gives no response, whatever the core was doing. -/
def Obligations.HardwareResetEntersUninit : Prop :=
  ∀ (s : State) (rest : List HostEvent), s.inputs = .hardwareReset :: rest →
    ∃ t, step s = .next t ∧ t.hasher.inited = false ∧ phase t.hasher = .uninit ∧
      t.inputs = rest ∧ t.responses = s.responses

/-- R91: one response per command, in order, and none without a command. -/
def Obligations.OneResponsePerCommand : Prop :=
  ∀ s t : State, step s = .next t →
    (s.inputs = [] → t.responses = s.responses) ∧
    (∀ rest, s.inputs = .hardwareReset :: rest → t.inputs = rest ∧ t.responses = s.responses) ∧
    (∀ w rest, s.inputs = .command w :: rest → t.inputs = rest ∧ ∃ r, t.responses = s.responses ++ [r])

/-- R90: which code answers which command, and that `VALUE` is the digest with `DIGEST` and zero otherwise. -/
def Obligations.ResponseCodesFollowTheTable : Prop :=
  ∀ (s t : State) (w : CommandWord) (rest : List HostEvent),
    s.inputs = .command w :: rest → step s = .next t →
    ∃ r : ResponseWord, t.responses = s.responses ++ [r] ∧
      (∀ seed, decode w = .ok (.init seed) → r.extractLsb' 32 2 = 0b00#2 ∧ r.extractLsb' 0 32 = 0#32) ∧
      (∀ b, decode w = .ok (.absorb b) → s.hasher.inited = true →
        r.extractLsb' 32 2 = 0b00#2 ∧ r.extractLsb' 0 32 = 0#32) ∧
      (decode w = .ok .finalize → s.hasher.inited = true →
        r.extractLsb' 32 2 = 0b01#2 ∧ digest s.hasher = .ok (r.extractLsb' 0 32)) ∧
      (∀ e, decode w = .error e → r.extractLsb' 32 2 = 0b10#2 ∧ r.extractLsb' 0 32 = 0#32) ∧
      (∀ i, decode w = .ok i → (∀ seed, i ≠ .init seed) → s.hasher.inited = false →
        r.extractLsb' 32 2 = 0b11#2 ∧ r.extractLsb' 0 32 = 0#32)

/-! ### INIT -/

/-- R130, R131, R134: INIT completes in every state with `InitState` of its operand and the answer `{OK, 0}`; the
elements of `InitState`, each as the seed determines it; FINALIZE uses it with the stored seed, and then `seed`
and `inited` do not change; and the worked example. -/
def Obligations.InitBuildsTheSeedState : Prop :=
  (∀ (seed : Word) (s : State),
    exec (.init seed) s =
      .next { s with hasher := initState seed, responses := s.responses ++ [0b00#2 ++ 0#32] }) ∧
  (∀ seed : Word, ∃ h : Hasher, h = initState seed ∧
    h.inited = true ∧ h.seed = seed ∧
    h.lanes.lane1 = seed + 0x9E3779B1#32 + 0x85EBCA77#32 ∧ h.lanes.lane1 = seed + 0x24234428#32 ∧
    h.lanes.lane2 = seed + 0x85EBCA77#32 ∧
    h.lanes.lane3 = seed ∧
    h.lanes.lane4 = seed - 0x9E3779B1#32 ∧ h.lanes.lane4 = seed + 0x61C8864F#32 ∧
    h.totalLength = 0 ∧ h.carryLen = 0 ∧ carryBytes h = [] ∧ h.wf) ∧
  (∀ s t : State, s.hasher.inited = true → exec .finalize s = .next t →
    t.hasher = initState s.hasher.seed ∧ t.hasher.seed = s.hasher.seed ∧ t.hasher.inited = s.hasher.inited) ∧
  (initState 0).lanes = ⟨0x24234428#32, 0x85EBCA77#32, 0x00000000#32, 0x61C8864F#32⟩

/-- R130 ("INIT depends on nothing but its operand") and R132 c, d: what the core held before leaves no trace,
and INIT twice is INIT once. -/
def Obligations.InitForgetsTheOldComputation : Prop :=
  ∀ (seed : Word) (s s' : State), ∃ h : Hasher,
    exec (.init seed) s = .next { s with hasher := h, responses := s.responses ++ [0#34] } ∧
    exec (.init seed) s' = .next { s' with hasher := h, responses := s'.responses ++ [0#34] } ∧
    exec (.init seed) { s with hasher := h } = .next { s with hasher := h, responses := s.responses ++ [0#34] }

/-- R133: the four initial lane values are pairwise different for every seed. -/
def Obligations.InitialLanesAreDifferent : Prop :=
  ∀ s : Word,
    (initLanes s).lane1 ≠ (initLanes s).lane2 ∧ (initLanes s).lane1 ≠ (initLanes s).lane3 ∧
    (initLanes s).lane1 ≠ (initLanes s).lane4 ∧ (initLanes s).lane2 ≠ (initLanes s).lane3 ∧
    (initLanes s).lane2 ≠ (initLanes s).lane4 ∧ (initLanes s).lane3 ≠ (initLanes s).lane4

/-! ### ABSORB -/

/-- R141: an empty chunk changes no state element and is answered `OK`; before INIT, `ERR_UNINIT`. -/
def Obligations.EmptyChunkIsNoOperation : Prop :=
  ∀ s : State,
    (s.hasher.inited = true →
      exec (.absorb []) s = .next { s with responses := s.responses ++ [0b00#2 ++ 0#32] }) ∧
    (s.hasher.inited = false →
      exec (.absorb []) s = .next { s with responses := s.responses ++ [0b11#2 ++ 0#32] })

/-- U1 and D14: the model has no step for an ABSORB that would take `total_length` to 2^64 or beyond. -/
def Obligations.AbsorbPastTheCounterIsRefused : Prop :=
  ∀ (s : State) (b : List Byte), s.hasher.inited = true →
    2 ^ 64 ≤ s.hasher.totalLength.toNat + b.length →
    exec (.absorb b) s = .refused .lengthCounterOverflow

/-- R149: the beat, case by case. `c` is `carry_len`, `n` the chunk's length. -/
def Obligations.AbsorbBeatCases : Prop :=
  ∀ (s : State) (b : List Byte), s.Inv → s.hasher.inited = true → b.length ≤ 16 →
    s.hasher.totalLength.toNat + b.length < 2 ^ 64 →
    let c := s.hasher.carryLen.toNat
    let n := b.length
    ∃ h : Hasher,
      exec (.absorb b) s = .next { s with hasher := h, responses := s.responses ++ [0b00#2 ++ 0#32] } ∧
      h.inited = true ∧ h.seed = s.hasher.seed ∧ h.totalLength.toNat = s.hasher.totalLength.toNat + n ∧
      (n = 0 → h.lanes = s.hasher.lanes ∧ h.carryLen.toNat = c ∧ carryBytes h = carryBytes s.hasher) ∧
      (1 ≤ n → c + n ≤ 15 → h.lanes = s.hasher.lanes ∧ h.carryLen.toNat = c + n ∧
        carryBytes h = carryBytes s.hasher ++ b) ∧
      (1 ≤ c → 16 ≤ c + n →
        h.lanes = blockMix (carryBytes s.hasher ++ b.take (16 - c)) s.hasher.lanes ∧
        h.carryLen.toNat = c + n - 16 ∧ carryBytes h = b.drop (16 - c)) ∧
      (c = 0 → n = 16 →
        h.lanes = blockMix b s.hasher.lanes ∧ h.carryLen.toNat = 0 ∧ carryBytes h = []) ∧
      (n = 0 ∨ (1 ≤ n ∧ c + n ≤ 15) ∨ (1 ≤ c ∧ 16 ≤ c + n) ∨ (c = 0 ∧ n = 16))

/-- R148: the closed form of `Absorb`, for a chunk of any length: with `z` the old carry followed by the
chunk, mix the whole blocks of `z` in order and keep the rest. -/
def Obligations.AbsorbClosedForm : Prop :=
  ∀ (h : Hasher) (b : List Byte), h.wf → h.inited = true → h.totalLength.toNat + b.length < 2 ^ 64 →
    let z := carryBytes h ++ b
    ∃ k : Hasher, absorb b h = .ok k ∧ k.wf ∧
      k.inited = true ∧ k.seed = h.seed ∧
      k.totalLength.toNat = h.totalLength.toNat + b.length ∧
      k.lanes = (List.range (z.length / 16)).foldl
        (fun l i => blockMix ((z.drop (16 * i)).take 16) l) h.lanes ∧
      carryBytes k = z.drop (16 * (z.length / 16)) ∧
      k.carryLen.toNat = z.length % 16

/-- R153: `Absorb(A)` then `Absorb(B)` gives the same state as `Absorb(A ++ B)`, from every state with
`inited = 1` that the invariant allows. -/
def Obligations.StreamingEquivalence : Prop :=
  ∀ (h : Hasher) (a b : List Byte), h.wf → h.inited = true →
    h.totalLength.toNat + a.length + b.length < 2 ^ 64 →
    ∃ h1 h2 : Hasher, absorb a h = .ok h1 ∧ absorb b h1 = .ok h2 ∧ absorb (a ++ b) h = .ok h2

/-- R143, R144, R146, R155: where ABSORB stores. A chunk that is only buffered is stored at `carry_len` and
up, below index 16, and every other cell reads as before, with no lane touched; one that completes a block
leaves the rest of it at index 0 and up, and every cell from the new `carry_len` up holds no value. (That an unused
cell holds none is the model's choice, log 2; the spec calls it stale, R36.) -/
def Obligations.AbsorbStoresAtTheFillIndex : Prop :=
  ∀ (s t : State) (b : List Byte), s.Inv → s.hasher.inited = true → exec (.absorb b) s = .next t →
    let c := s.hasher.carryLen.toNat
    (c + b.length < 16 →
      t.hasher.lanes = s.hasher.lanes ∧ t.hasher.carryLen.toNat = c + b.length ∧
      (∀ a, a < c ∨ c + b.length ≤ a → readCell t.hasher.carry a = readCell s.hasher.carry a) ∧
      (∀ j < b.length, readCell t.hasher.carry (c + j) = b[j]?)) ∧
    (16 ≤ c + b.length →
      t.hasher.carryLen.toNat = (c + b.length) % 16 ∧
      (∀ j < t.hasher.carryLen.toNat,
        readCell t.hasher.carry j = b[b.length - t.hasher.carryLen.toNat + j]?) ∧
      ∀ a, t.hasher.carryLen.toNat ≤ a → readCell t.hasher.carry a = none)

/-! ### The block mixer -/

/-- R150: `ROUND`, its corner cases, that it is a bijection in either operand, and its worked example with the
intermediate values. -/
def Obligations.RoundFormulaAndBijections : Prop :=
  (∀ acc w : Word, roundLane acc w = (acc + w * 0x85EBCA77#32).rotateLeft 13 * 0x9E3779B1#32) ∧
  roundLane 0 0 = 0 ∧
  (∀ acc : Word, roundLane acc 0 = acc.rotateLeft 13 * 0x9E3779B1#32) ∧
  (∀ acc : Word, acc ≠ 0 → roundLane acc 0 ≠ acc) ∧
  (∀ w : Word, Function.Bijective (fun acc : Word => roundLane acc w)) ∧
  (∀ acc : Word, Function.Bijective (fun w : Word => roundLane acc w)) ∧
  mul32 0x03020100#32 Config.prime2 = 0xE5B87700#32 ∧ add32 0x24234428#32 0xE5B87700#32 = 0x09DBBB28#32 ∧
  rotl32 0x09DBBB28#32 13 = 0x7765013B#32 ∧ roundLane 0x24234428#32 0x03020100#32 = 0xF817BCCB#32

/-- R151: word `i` of a block, little-endian, goes to `lane[i+1]`; an all-zero block changes every lane that is
not zero; and the worked example. -/
def Obligations.BlockMixPairsWordsWithLanes : Prop :=
  (∀ (l : Lanes) (b0 b1 b2 b3 b4 b5 b6 b7 b8 b9 b10 b11 b12 b13 b14 b15 : Byte),
    blockMix [b0, b1, b2, b3, b4, b5, b6, b7, b8, b9, b10, b11, b12, b13, b14, b15] l =
      { lane1 := roundLane l.lane1 (le32 b0 b1 b2 b3), lane2 := roundLane l.lane2 (le32 b4 b5 b6 b7),
        lane3 := roundLane l.lane3 (le32 b8 b9 b10 b11), lane4 := roundLane l.lane4 (le32 b12 b13 b14 b15) }) ∧
  (∀ l : Lanes,
    let m := blockMix (List.replicate 16 0#8) l
    (l.lane1 ≠ 0 → m.lane1 ≠ l.lane1) ∧ (l.lane2 ≠ 0 → m.lane2 ≠ l.lane2) ∧
    (l.lane3 ≠ 0 → m.lane3 ≠ l.lane3) ∧ (l.lane4 ≠ 0 → m.lane4 ≠ l.lane4)) ∧
  le32 0x00#8 0x01#8 0x02#8 0x03#8 = 0x03020100#32 ∧ le32 0x04#8 0x05#8 0x06#8 0x07#8 = 0x07060504#32 ∧
  le32 0x08#8 0x09#8 0x0A#8 0x0B#8 = 0x0B0A0908#32 ∧ le32 0x0C#8 0x0D#8 0x0E#8 0x0F#8 = 0x0F0E0D0C#32 ∧
  blockMix [0x00#8, 0x01#8, 0x02#8, 0x03#8, 0x04#8, 0x05#8, 0x06#8, 0x07#8,
      0x08#8, 0x09#8, 0x0A#8, 0x0B#8, 0x0C#8, 0x0D#8, 0x0E#8, 0x0F#8] (initState 0).lanes =
    { lane1 := 0xF817BCCB#32, lane2 := 0x0222719B#32, lane3 := 0xD4B0C0A4#32, lane4 := 0xDEBB7574#32 }

/-- R65 and R152: byte `k` of a block is mixed into `lane[k/4 + 1]` and into no other lane; and changing it
changes that lane. -/
def Obligations.BlockByteReachesItsLaneOnly : Prop :=
  ∀ (blk : List Byte) (l : Lanes) (k : Nat) (b : Byte), blk.length = 16 → k < 16 → blk[k]? ≠ some b →
    let m := blockMix blk l
    let m' := blockMix (blk.set k b) l
    (m.lane1 = m'.lane1 ↔ k / 4 ≠ 0) ∧ (m.lane2 = m'.lane2 ↔ k / 4 ≠ 1) ∧
    (m.lane3 = m'.lane3 ↔ k / 4 ≠ 2) ∧ (m.lane4 = m'.lane4 ↔ k / 4 ≠ 3)

/-! ### FINALIZE -/

/-- R181: the digest as one expression, with `L = total_length`, `t = carry_len`, `c` the valid carry bytes;
FINALIZE completes with it. -/
def Obligations.FinalizeDigestAsOneExpression : Prop :=
  ∀ s : State, s.Inv → s.hasher.inited = true →
    let c := carryBytes s.hasher
    let t := s.hasher.totalLength.toNat % 16
    let a0 := if 16 ≤ s.hasher.totalLength.toNat then converge s.hasher.lanes else shortSeed s.hasher.seed
    let a1 := a0 + BitVec.ofNat 32 (s.hasher.totalLength.toNat % 2 ^ 32)
    let a2 := (List.range (t / 4)).foldl (fun a j => tailWord a (wordOfBytes ((c.drop (4 * j)).take 4))) a1
    let a3 := (c.drop (4 * (t / 4))).foldl (fun a b => tailByte a (zext32 b)) a2
    s.hasher.carryLen.toNat = t ∧ c.length = t ∧
    ∃ h : Hasher, exec .finalize s =
      .next { s with hasher := h, responses := s.responses ++ [0b01#2 ++ avalanche a3] }

/-- R179: after FINALIZE the state is exactly what `INIT seed` would leave, with the stored seed. -/
def Obligations.FinalizeReinitialisesUnderItsSeed : Prop :=
  ∀ s t : State, s.hasher.inited = true → exec .finalize s = .next t →
    ∃ u : State, exec (.init s.hasher.seed) s = .next u ∧ t.hasher = u.hasher ∧
      t.hasher.lanes = initLanes s.hasher.seed ∧ t.hasher.totalLength = 0 ∧ t.hasher.carryLen = 0 ∧
      t.hasher.inited = true ∧ t.hasher.seed = s.hasher.seed

/-- R186 and R184 a: a FINALIZE right after a FINALIZE answers the digest of the empty stream under the same
seed, and changes nothing of the core. -/
def Obligations.SecondFinalizeAnswersTheEmptyDigest : Prop :=
  ∀ s : State, s.Inv → s.hasher.inited = true →
    ∃ t, exec .finalize s = .next t ∧
      exec .finalize t =
        .next { t with responses := t.responses ++ [0b01#2 ++ avalanche (s.hasher.seed + 0x165667B1#32)] }

/-- R171, R172, R173, R174: the start value, chosen by the whole counter, and the length fold of its low 32
bits; with the corner cases and the worked examples. -/
def Obligations.StartValueAndLengthFold : Prop :=
  (∀ l : Lanes, converge l =
    l.lane1.rotateLeft 1 + l.lane2.rotateLeft 7 + l.lane3.rotateLeft 12 + l.lane4.rotateLeft 18) ∧
  (∀ seed : Word, shortSeed seed = seed + 0x165667B1#32) ∧
  (∀ h : Hasher, (16 ≤ h.totalLength.toNat → startValue h = converge h.lanes) ∧
    (h.totalLength.toNat < 16 → startValue h = shortSeed h.seed)) ∧
  (∀ h : Hasher, h.totalLength.toNat = 2 ^ 32 + 5 → startValue h = converge h.lanes) ∧
  (∀ (acc : Word) (n : BitVec 64), (addLen acc n).toNat = (acc.toNat + n.toNat % 2 ^ 32) % 2 ^ 32) ∧
  converge ⟨0, 0, 0, 0⟩ = 0 ∧
  rotl32 0xF817BCCB#32 1 = 0xF02F7997#32 ∧ rotl32 0x0222719B#32 7 = 0x1138CD81#32 ∧
  rotl32 0xD4B0C0A4#32 12 = 0x0C0A4D4B#32 ∧ rotl32 0xDEBB7574#32 18 = 0xD5D37AED#32 ∧
  converge ⟨0xF817BCCB#32, 0x0222719B#32, 0xD4B0C0A4#32, 0xDEBB7574#32⟩ = 0xE3460F50#32 ∧
  shortSeed 0xE9A9984F#32 = 0 ∧ shortSeed 0 = 0x165667B1#32 ∧ shortSeed 1 = 0x165667B2#32 ∧
  (∀ acc : Word, addLen acc 0 = acc ∧ addLen acc 0x100000000#64 = acc) ∧
  addLen 0x165667B1#32 4#64 = 0x165667B5#32

/-- R175 and R176: the two tail steps, with their corner cases and worked examples. -/
def Obligations.TailStepFormulas : Prop :=
  (∀ acc w : Word, tailWord acc w = (acc + w * 0xC2B2AE3D#32).rotateLeft 17 * 0x27D4EB2F#32) ∧
  (∀ acc b : Word, tailByte acc b = (acc + b * 0x165667B1#32).rotateLeft 11 * 0x9E3779B1#32) ∧
  tailWord 0 0 = 0 ∧ tailByte 0 0 = 0 ∧ (zext32 0xFF#8).toNat = 255 ∧
  mul32 0x74736574#32 Config.prime3 = 0xA11C04A4#32 ∧ add32 0x165667B5#32 0xA11C04A4#32 = 0xB7726C59#32 ∧
  rotl32 0xB7726C59#32 17 = 0xD8B36EE4#32 ∧ tailWord 0x165667B5#32 0x74736574#32 = 0x108CA7DC#32 ∧
  mul32 0x61#32 Config.prime5 = 0x76BD4A11#32 ∧ add32 0x165667B2#32 0x76BD4A11#32 = 0x8D13B1C3#32 ∧
  rotl32 0x8D13B1C3#32 11 = 0x9D8E1C68#32 ∧ tailByte 0x165667B2#32 0x61#32 = 0x6506CBE8#32

/-- R178: the five operations of the avalanche, that it is a bijection, and its worked example with the
intermediate values. -/
def Obligations.AvalancheFormulaAndBijection : Prop :=
  (∀ a0 a1 a2 a3 a4 : Word,
    a1 = a0 ^^^ (a0 >>> 15) → a2 = a1 * 0x85EBCA77#32 → a3 = a2 ^^^ (a2 >>> 13) → a4 = a3 * 0xC2B2AE3D#32 →
    avalanche a0 = a4 ^^^ (a4 >>> 16)) ∧
  avalanche 0 = 0 ∧ Function.Bijective avalanche ∧
  xor32 0x165667B1#32 (shr32 0x165667B1#32 15) = 0x16564B1D#32 ∧
  mul32 0x16564B1D#32 Config.prime2 = 0x7E00CC7B#32 ∧
  xor32 0x7E00CC7B#32 (shr32 0x7E00CC7B#32 13) = 0x7E033C7D#32 ∧
  mul32 0x7E033C7D#32 Config.prime3 = 0x02CC5FC9#32 ∧ avalanche 0x165667B1#32 = 0x02CC5D05#32

/-- R206, last sentence: for the empty stream different seeds give different digests, and every digest is
reached. -/
def Obligations.EmptyDigestIsABijectionOfTheSeed : Prop :=
  (∀ s : Word, xxh32 s [] = avalanche (s + 0x165667B1#32)) ∧ Function.Bijective (fun s : Word => xxh32 s [])

/-! ### The arithmetic facility -/

/-- R110, R114, R115, R117, and the numbers of R111 and R112: the facility's definitions, corner cases and
examples. -/
def Obligations.ArithmeticIsModuloTwoToThe32 : Prop :=
  (∀ a b c : Word,
    (add32 a b).toNat = (a.toNat + b.toNat) % 2 ^ 32 ∧
    add32 a b = add32 b a ∧ add32 (add32 a b) c = add32 a (add32 b c) ∧ add32 a 0 = a ∧
    (sub32 a b).toNat = (a.toNat + 2 ^ 32 - b.toNat) % 2 ^ 32 ∧
    (mul32 a b).toNat = (a.toNat * b.toNat) % 2 ^ 32 ∧ mul32 a 0 = 0 ∧ mul32 a 1 = a ∧
    (∀ i < 32, (xor32 a b).getLsbD i = ((a.getLsbD i).xor (b.getLsbD i))) ∧ xor32 a 0 = a ∧ xor32 a a = 0 ∧
    (∀ n, 1 ≤ n → n ≤ 31 → (shr32 a n).toNat = a.toNat / 2 ^ n ∧ (a.toNat < 2 ^ n → shr32 a n = 0)) ∧
    (∀ d : Byte, (zext32 d).toNat = d.toNat)) ∧
  add32 0xFFFFFFFF#32 1 = 0 ∧ add32 0x80000000#32 0x80000000#32 = 0 ∧
  add32 0x9E3779B1#32 0x85EBCA77#32 = 0x24234428#32 ∧
  sub32 0 0x9E3779B1#32 = 0x61C8864F#32 ∧ sub32 0x9E3779B1#32 0x9E3779B1#32 = 0 ∧
  sub32 0x9E3779B0#32 0x9E3779B1#32 = 0xFFFFFFFF#32 ∧ sub32 1 0x9E3779B1#32 = 0x61C88650#32 ∧
  mul32 0xFFFFFFFF#32 0xFFFFFFFF#32 = 1 ∧ mul32 0x80000000#32 2 = 0 ∧
  mul32 0xFFFFFFFF#32 0x85EBCA77#32 = 0x7A143589#32 ∧ mul32 0x03020100#32 0x85EBCA77#32 = 0xE5B87700#32 ∧
  xor32 0x165667B1#32 0x00002CAC#32 = 0x16564B1D#32 ∧
  shr32 0xFFFFFFFF#32 16 = 0x0000FFFF#32 ∧ shr32 0x80000000#32 15 = 0x00010000#32 ∧
  shr32 0x165667B1#32 15 = 0x00002CAC#32 ∧ zext32 0xFF#8 = 0x000000FF#32 ∧ zext32 0x61#8 = 0x00000061#32

/-- What R111, R112, R118 and R121 infer: taking `PRIME1` away is adding 0x61C8864F; the words are a commutative
ring (both operations commute and associate, the units are 0 and 1, `SUB32` gives the negative, `MUL32`
distributes); multiplying by an odd number, and so by each of the five constants, is a bijection. -/
def Obligations.WordsAreARingAndOddFactorsInvertible : Prop :=
  (∀ a : Word, sub32 a Config.prime1 = add32 a 0x61C8864F#32) ∧
  (∀ a b c : Word,
    add32 a b = add32 b a ∧ add32 (add32 a b) c = add32 a (add32 b c) ∧ add32 a 0 = a ∧
    add32 a (sub32 0 a) = 0 ∧ add32 (sub32 a b) b = a ∧
    mul32 a b = mul32 b a ∧ mul32 (mul32 a b) c = mul32 a (mul32 b c) ∧ mul32 a 1 = a ∧
    mul32 a (add32 b c) = add32 (mul32 a b) (mul32 a c)) ∧
  (∀ b : Word, b.toNat % 2 = 1 → Function.Bijective (fun x : Word => mul32 x b)) ∧
  (∀ p ∈ [Config.prime1, Config.prime2, Config.prime3, Config.prime4, Config.prime5],
    Function.Bijective (fun x : Word => mul32 x p)) ∧
  add32 Config.prime1 Config.prime2 = 0x24234428#32 ∧ sub32 0 Config.prime1 = 0x61C8864F#32

/-- R113: rotate left by 1 to 31: the number, and that bit `i` becomes bit `(i + r) mod 32`; with the corner
cases and the example. -/
def Obligations.RotateLeftLosesNoBit : Prop :=
  (∀ (x : Word) (r : Nat), 1 ≤ r → r ≤ 31 →
    (rotl32 x r).toNat = (x.toNat * 2 ^ r) % 2 ^ 32 + x.toNat / 2 ^ (32 - r) ∧
    (∀ i < 32, (rotl32 x r).getLsbD ((i + r) % 32) = x.getLsbD i) ∧
    rotl32 0 r = 0 ∧ rotl32 0xFFFFFFFF#32 r = 0xFFFFFFFF#32) ∧
  (∀ (x : Word) (r : Nat), rotl32 x r = rotl32 x (r % 32)) ∧
  rotl32 0x80000000#32 1 = 0x00000001#32 ∧ rotl32 0x00000001#32 18 = 0x00040000#32 ∧
  rotl32 0x80000001#32 13 = 0x00003000#32 ∧ rotl32 0x09DBBB28#32 13 = 0x7765013B#32

/-- R116: `LE32`, its corner cases and its worked example. -/
def Obligations.LittleEndianWordValue : Prop :=
  (∀ b0 b1 b2 b3 : Byte, (le32 b0 b1 b2 b3).toNat =
    b0.toNat + 2 ^ 8 * b1.toNat + 2 ^ 16 * b2.toNat + 2 ^ 24 * b3.toNat) ∧
  le32 0xFF#8 0x00#8 0x00#8 0x00#8 = 0x000000FF#32 ∧ le32 0x00#8 0x00#8 0x00#8 0x80#8 = 0x80000000#32 ∧
  le32 0xFF#8 0xFF#8 0xFF#8 0xFF#8 = 0xFFFFFFFF#32 ∧ le32 0x74#8 0x65#8 0x73#8 0x74#8 = 0x74736574#32

/-! ### The whole machine -/

/-- R237 with R29, R30, R31: every step keeps the invariant of the state at rest. -/
def Obligations.StepKeepsTheInvariant : Prop :=
  ∀ s t : State, s.Inv → step s = .next t → t.Inv

/-- The invariant holds right after hardware reset, whatever the registers then hold, and after INIT. -/
def Obligations.ResetMeetsTheInvariant : Prop :=
  State.reset.Inv ∧ State.reset.hasher.inited = false ∧ (∀ s : State, (hardwareReset s).Inv) ∧
  ∀ seed : Word, (initState seed).wf

/-- R269 and R237: from a state that meets the invariant no step faults, and the one step the model declines is
an ABSORB past the length limit (U1). -/
def Obligations.EveryCommandIsAnswered : Prop :=
  ∀ s : State, s.Inv →
    (∃ t, step s = .next t) ∨
    (step s = .refused .lengthCounterOverflow ∧ s.hasher.inited = true ∧
      ∃ w rest b, s.inputs = .command w :: rest ∧ decode w = .ok (.absorb b) ∧
        2 ^ 64 ≤ s.hasher.totalLength.toNat + b.length)

/-- R220, last sentence: once `inited` is 1, every legal command word is answered `OK` or `DIGEST`. -/
def Obligations.OnceInitialisedNoCommandErrs : Prop :=
  ∀ (s : State) (w : CommandWord) (rest : List HostEvent) (i : Instr),
    s.Inv → s.hasher.inited = true → s.inputs = .command w :: rest → decode w = .ok i →
    (∀ b, i = .absorb b → s.hasher.totalLength.toNat + b.length < 2 ^ 64) →
    ∃ t r, step s = .next t ∧ t.hasher.inited = true ∧ t.responses = s.responses ++ [r] ∧
      (r.extractLsb' 32 2 = 0b00#2 ∨ r.extractLsb' 32 2 = 0b01#2)

/-- R32: the arrows between the phases, and no others. -/
def Obligations.PhaseTransitions : Prop :=
  ∀ s t : State, s.Inv → step s = .next t →
    (s.inputs = [] → phase t.hasher = phase s.hasher) ∧
    (∀ rest, s.inputs = .hardwareReset :: rest → phase t.hasher = .uninit) ∧
    (∀ w rest, s.inputs = .command w :: rest →
      (∀ e, decode w = .error e → phase t.hasher = phase s.hasher) ∧
      (∀ seed, decode w = .ok (.init seed) → phase t.hasher = .empty) ∧
      (∀ i, decode w = .ok i → (∀ seed, i ≠ .init seed) → phase s.hasher = .uninit →
        phase t.hasher = .uninit ∧ t.responses = s.responses ++ [0b11#2 ++ 0#32]) ∧
      (∀ b, decode w = .ok (.absorb b) → phase s.hasher = .empty → b = [] → phase t.hasher = .empty) ∧
      (∀ b, decode w = .ok (.absorb b) → phase s.hasher = .empty ∨ phase s.hasher = .short →
        s.hasher.totalLength.toNat + b.length ≤ 15 → ¬ (phase s.hasher = .empty ∧ b = []) →
        phase t.hasher = .short) ∧
      (∀ b, decode w = .ok (.absorb b) → phase s.hasher = .empty ∨ phase s.hasher = .short →
        16 ≤ s.hasher.totalLength.toNat + b.length → phase t.hasher = .long) ∧
      (∀ b, decode w = .ok (.absorb b) → phase s.hasher = .long → phase t.hasher = .long) ∧
      (decode w = .ok .finalize → phase s.hasher ≠ .uninit →
        phase t.hasher = .empty ∧ t.hasher.seed = s.hasher.seed))

/-- R23: INIT writes `seed` from its operand, and nothing else writes it (a hardware reset leaves it without a
value the spec names, R38). -/
def Obligations.OnlyInitWritesTheSeed : Prop :=
  ∀ s t : State, step s = .next t →
    (∀ w rest seed, s.inputs = .command w :: rest → decode w = .ok (.init seed) → t.hasher.seed = seed) ∧
    ((∀ rest, s.inputs ≠ .hardwareReset :: rest) →
      (∀ w rest seed, s.inputs = .command w :: rest → decode w ≠ .ok (.init seed)) →
      t.hasher.seed = s.hasher.seed)

/-- R28: `inited` is 0 after hardware reset, every INIT sets it, nothing but a hardware reset clears it and
nothing but INIT sets it; and while it is 0, ABSORB and FINALIZE are refused with `ERR_UNINIT`. -/
def Obligations.OnlyHardwareResetClearsInited : Prop :=
  State.reset.hasher.inited = false ∧
  ∀ s t : State, step s = .next t →
    (∀ rest, s.inputs = .hardwareReset :: rest → t.hasher.inited = false) ∧
    (∀ w rest seed, s.inputs = .command w :: rest → decode w = .ok (.init seed) → t.hasher.inited = true) ∧
    ((∀ rest, s.inputs ≠ .hardwareReset :: rest) →
      (∀ w rest seed, s.inputs = .command w :: rest → decode w ≠ .ok (.init seed)) →
      t.hasher.inited = s.hasher.inited) ∧
    (∀ w rest i, s.inputs = .command w :: rest → decode w = .ok i → (∀ seed, i ≠ .init seed) →
      s.hasher.inited = false → t = { s with inputs := rest, responses := s.responses ++ [0b11#2 ++ 0#32] })

/-- R22 and R143: the lanes change only by a hardware reset, an INIT, a FINALIZE, or an ABSORB that completes a
block. -/
def Obligations.LanesChangeOnlyWhenTheRulesSay : Prop :=
  ∀ s t : State, s.Inv → step s = .next t → t.hasher.lanes ≠ s.hasher.lanes →
    (∃ rest, s.inputs = .hardwareReset :: rest) ∨
    (∃ w rest seed, s.inputs = .command w :: rest ∧ decode w = .ok (.init seed)) ∨
    (s.hasher.inited = true ∧ ∃ w rest, s.inputs = .command w :: rest ∧ decode w = .ok .finalize) ∨
    (s.hasher.inited = true ∧ ∃ w rest b, s.inputs = .command w :: rest ∧ decode w = .ok (.absorb b) ∧
      16 ≤ s.hasher.carryLen.toNat + b.length)

/-- The frame of the three commands: none touches what the host has yet to present or the reset number, each
adds one response; ABSORB and FINALIZE write neither `seed` nor `inited` (R140, R170); one that answers
`ERR_UNINIT` writes nothing of the core (R224); INIT and an answered FINALIZE leave exactly `InitState` (R130, R179);
an answered ABSORB that completes no block changes no lane and no carry cell outside the bytes it stores at
`carry_len` (R143), and one that completes a block leaves the cells from the new `carry_len` up without a value (the
model's choice, log 2). -/
def Obligations.CommandsWriteOnlyWhatTheirRulesName : Prop :=
  ∀ (i : Instr) (s t : State), exec i s = .next t →
    t.inputs = s.inputs ∧ t.resetCount = s.resetCount ∧ (∃ r, t.responses = s.responses ++ [r]) ∧
    ((∀ seed, i ≠ .init seed) → t.hasher.seed = s.hasher.seed ∧ t.hasher.inited = s.hasher.inited) ∧
    ((∀ seed, i ≠ .init seed) → s.hasher.inited = false → t.hasher = s.hasher) ∧
    (∀ seed, i = .init seed → t.hasher = initState seed) ∧
    (i = .finalize → s.hasher.inited = true → t.hasher = initState s.hasher.seed) ∧
    (∀ b, i = .absorb b → s.Inv → s.hasher.inited = true →
      let c := s.hasher.carryLen.toNat
      t.hasher.totalLength.toNat = s.hasher.totalLength.toNat + b.length ∧
      (c + b.length < 16 → t.hasher.lanes = s.hasher.lanes ∧
        ∀ a, a < c ∨ c + b.length ≤ a → readCell t.hasher.carry a = readCell s.hasher.carry a) ∧
      (16 ≤ c + b.length → ∀ a, t.hasher.carryLen.toNat ≤ a → readCell t.hasher.carry a = none))

/-! ### Runs -/

/-- R30 and R31: `Absorb` carries the state after the stream `d` to the state after `d ++ b`; the state after
INIT is that of the empty stream; and each of these states meets the invariant. -/
def Obligations.AbsorbExtendsTheStream : Prop :=
  (∀ s : Word, initState s = streamState s []) ∧
  ∀ (s : Word) (d b : List Byte), d.length + b.length < 2 ^ 64 →
    (streamState s d).wf ∧ absorb b (streamState s d) = .ok (streamState s (d ++ b))

/-- R201: the digest of the state after the stream `d` is `XXH32(s, d)`. -/
def Obligations.StreamDigestIsXxh32 : Prop :=
  ∀ (s : Word) (d : List Byte), d.length < 2 ^ 64 → digest (streamState s d) = .ok (xxh32 s d)

/-- R60 b with R29 and R30: if the core holds the state after the stream `d` under its seed, every step but a
hardware reset leaves the state after a stream again: `d` with the chunk of a legal ABSORB after it, the empty
stream after INIT and after FINALIZE, `d` itself otherwise; FINALIZE answers the digest of exactly `d`; and a
hardware reset, the one step after which the core holds no stream, clears `inited`. -/
def Obligations.StepTracksTheStream : Prop :=
  ∀ (s t : State) (seed : Word) (d : List Byte),
    d.length < 2 ^ 64 → s.hasher = streamState seed d → step s = .next t →
    (s.inputs = [] → t.hasher = streamState seed d) ∧
    (∀ rest, s.inputs = .hardwareReset :: rest → t.hasher.inited = false) ∧
    (∀ w rest, s.inputs = .command w :: rest →
      (∀ e, decode w = .error e → t.hasher = streamState seed d) ∧
      (∀ b, decode w = .ok (.absorb b) →
        (d ++ b).length < 2 ^ 64 ∧ t.hasher = streamState seed (d ++ b)) ∧
      (∀ seed', decode w = .ok (.init seed') → t.hasher = streamState seed' []) ∧
      (decode w = .ok .finalize → t.hasher = streamState seed [] ∧
        t.responses = s.responses ++ [0b01#2 ++ xxh32 seed d]))

/-- R95: the greedy split is `ceil(n/16)` chunks of at most 16 bytes that make up the sequence, all full but
perhaps the last. -/
def Obligations.GreedySplitMakesUpTheBytes : Prop :=
  ∀ b : List Byte,
    (beats b).flatten = b ∧ (beats b).length = (b.length + 15) / 16 ∧
    (∀ c ∈ beats b, 1 ≤ c.length ∧ c.length ≤ 16) ∧
    (∀ i, 16 * (i + 1) ≤ b.length → (beats b)[i]? = some ((b.drop (16 * i)).take 16))

/-- R203: two lists of chunks with one concatenation, sent to two cores in one state, leave one state, that of
`Absorb` on the concatenation, and a FINALIZE that follows answers one digest. -/
def Obligations.AnySplitLeavesTheSameState : Prop :=
  ∀ (s s' : State) (chunks chunks' : List (List Byte)) (rest rest' : List HostEvent),
    s.Inv → s.hasher.inited = true → s'.hasher = s.hasher →
    (∀ c ∈ chunks, c.length ≤ 16) → (∀ c ∈ chunks', c.length ≤ 16) → chunks'.flatten = chunks.flatten →
    s.hasher.totalLength.toNat + chunks.flatten.length < 2 ^ 64 →
    s.inputs = present (chunks.map .absorb) ++ rest → s'.inputs = present (chunks'.map .absorb) ++ rest' →
    ∃ (h : Hasher) (t t' : State) (d : Word), absorb chunks.flatten s.hasher = .ok h ∧
      run chunks.length s = .next t ∧ run chunks'.length s' = .next t' ∧
      t = { s with
        hasher := h, inputs := rest, responses := s.responses ++ List.replicate chunks.length (0b00#2 ++ 0#32) } ∧
      t' = { s' with
        hasher := h, inputs := rest', responses := s'.responses ++ List.replicate chunks'.length (0b00#2 ++ 0#32) } ∧
      exec .finalize t = .next { t with
        hasher := initState h.seed, responses := t.responses ++ [0b01#2 ++ d] } ∧
      exec .finalize t' = .next { t' with
        hasher := initState h.seed, responses := t'.responses ++ [0b01#2 ++ d] }

/-- R200: from any state the pseudo-operation HASH, `INIT s ; ABSORBN d ; FINALIZE`, is answered `OK` for INIT and
for each of its beats, then `XXH32(s, d)`, and leaves `InitState(s)`; and the worked example. -/
def Obligations.HashProgramAnswersXxh32 : Prop :=
  (∀ (seed : Nat) (d : List Byte) (s : State) (rest : List HostEvent), d.length < 2 ^ 64 →
    s.inputs = present (expand (.hash seed d)) ++ rest →
    expand (.hash seed d) = .init (BitVec.ofNat 32 seed) :: (expand (.absorbN d) ++ [.finalize]) ∧
    (expand (.absorbN d)).length = (d.length + 15) / 16 ∧
    run (expand (.hash seed d)).length s = .next { s with
      hasher := initState (BitVec.ofNat 32 seed), inputs := rest,
      responses := s.responses ++ List.replicate (1 + (d.length + 15) / 16) (0b00#2 ++ 0#32) ++
        [0b01#2 ++ xxh32 (BitVec.ofNat 32 seed) d] }) ∧
  xxh32 0 [0x74#8, 0x65#8, 0x73#8, 0x74#8] = 0x3E2023CF#32

/-- R204: INIT, the bytes in pieces of any sizes, each sent as `ABSORBN` sends it, FINALIZE: the digest is that of
the unsplit bytes. -/
def Obligations.AnyChunkingGivesTheSameDigest : Prop :=
  ∀ (seed : Word) (pieces : List (List Byte)) (s : State) (rest : List HostEvent),
    pieces.flatten.length < 2 ^ 64 →
    s.inputs = present (.init seed :: (pieces.flatMap (fun p => expand (.absorbN p)) ++ [.finalize])) ++ rest →
    let n := (pieces.map (fun p => (p.length + 15) / 16)).sum
    ∃ t, run (n + 2) s = .next t ∧ t.inputs = rest ∧
      t.responses = s.responses ++ List.replicate (n + 1) (0b00#2 ++ 0#32) ++
        [0b01#2 ++ xxh32 seed pieces.flatten]

/-- R205: after a FINALIZE the core holds what `INIT seed` would leave, and hashes a second stream as a core
freshly initialised with its seed would. -/
def Obligations.ReuseAfterFinalize : Prop :=
  ∀ (s : State) (chunks : List (List Byte)) (rest : List HostEvent),
    s.Inv → s.hasher.inited = true → (∀ c ∈ chunks, c.length ≤ 16) → chunks.flatten.length < 2 ^ 64 →
    s.inputs = present (.finalize :: (chunks.map .absorb ++ [.finalize])) ++ rest →
    ∃ (u t : State) (d : Word), digest s.hasher = .ok d ∧
      step s = .next u ∧ u.hasher = initState s.hasher.seed ∧
      run (chunks.length + 2) s = .next t ∧ t.inputs = rest ∧ t.hasher.seed = s.hasher.seed ∧
      t.responses = s.responses ++ [0b01#2 ++ d] ++ List.replicate chunks.length (0b00#2 ++ 0#32) ++
        [0b01#2 ++ xxh32 s.hasher.seed chunks.flatten]

/-- R202 and U2: what an uninitialised core holds beside `inited` never reaches a response, nor a state after
an INIT: two machines that differ only there run alike, for any number of steps. -/
def Obligations.UnspecifiedValuesReachNoResponse : Prop :=
  ∀ (n : Nat) (s t : State), SameOutside s t →
    match run n s, run n t with
    | .next s', .next t' => SameOutside s' t'
    | .fault f, .fault g => f = g
    | .refused r, .refused q => r = q
    | _, _ => False
end

