-- ==== Sys2Proof/Laws/Arith.lean ====
section
/-! SUPPORT. The facility in Lean's own operations on bit vectors (40_arith32.md R110 to R117). -/

namespace Sys2Proof.Machine

theorem add32_eq (a b : Word) : add32 a b = a + b := BitVec.add_comm b a

theorem sub32_eq (a b : Word) : sub32 a b = a - b := by rfl

theorem mul32_eq (a b : Word) : mul32 a b = a * b := BitVec.mul_comm b a

theorem rotl32_eq (x : Word) (r : Nat) : rotl32 x r = x.rotateLeft r := by rfl

theorem xor32_eq (a b : Word) : xor32 a b = a ^^^ b := by rfl

theorem shr32_eq (x : Word) (n : Nat) : shr32 x n = x >>> n := by rfl

theorem zext32_eq (b : Byte) : zext32 b = b.setWidth 32 := by rfl

/-- The number a byte sequence stands for is below `256 ^ length`. -/
theorem littleEndian_lt (bytes : List Byte) : littleEndian bytes < 2 ^ (8 * bytes.length) := by
  induction bytes with
  | nil => simp [littleEndian]
  | cons b bs ih =>
    have hb := b.isLt
    rw [littleEndian, List.length_cons, Nat.mul_succ, Nat.pow_add]
    omega

/-- Two byte sequences of one length that stand for the same number are the same. -/
theorem littleEndian_inj {x y : List Byte} (hl : x.length = y.length) (h : littleEndian x = littleEndian y) :
    x = y := by
  induction x generalizing y with
  | nil => exact (List.length_eq_zero_iff.1 hl.symm).symm
  | cons b bs ih =>
    cases y with
    | nil => simp at hl
    | cons c cs =>
      have hb := b.isLt
      have hc := c.isLt
      simp only [littleEndian] at h
      simp only [List.length_cons, Nat.add_right_cancel_iff] at hl
      have h1 : b = c := BitVec.eq_of_toNat_eq (by omega)
      have h2 : bs = cs := ih hl (by omega)
      rw [h1, h2]

theorem wordOfBytes_toNat {bytes : List Byte} (h : bytes.length ≤ 4) :
    (wordOfBytes bytes).toNat = littleEndian bytes := by
  have := littleEndian_lt bytes
  have h2 : 2 ^ (8 * bytes.length) ≤ 2 ^ 32 := Nat.pow_le_pow_right (by omega) (by omega)
  rw [wordOfBytes, BitVec.toNat_ofNat]
  exact Nat.mod_eq_of_lt (lt_of_lt_of_le this h2)

/-- `wordOfBytes` on four bytes keeps every one of them. -/
theorem wordOfBytes_inj {x y : List Byte} (hx : x.length = 4) (hy : y.length = 4)
    (h : wordOfBytes x = wordOfBytes y) : x = y := by
  refine littleEndian_inj (by omega) ?_
  rw [← wordOfBytes_toNat (by omega), ← wordOfBytes_toNat (by omega), h]

end Sys2Proof.Machine
end

