-- ==== Sys2Proof/Laws/State.lean ====
section
/-! SUPPORT. One lemma per field per update of the state, true by rfl. (Written `by rfl`, so that simp
rewrites with them and does not ask the kernel to compare the states field by field.) -/

namespace Sys2Proof.Machine

@[simp] theorem respond_hasher (s : State) (c : RspCode) (v : Word) : (respond s c v).hasher = s.hasher := by rfl
@[simp] theorem respond_inputs (s : State) (c : RspCode) (v : Word) : (respond s c v).inputs = s.inputs := by rfl
@[simp] theorem respond_responses (s : State) (c : RspCode) (v : Word) :
    (respond s c v).responses = s.responses ++ [responseWord c v] := by rfl
@[simp] theorem respond_resetCount (s : State) (c : RspCode) (v : Word) :
    (respond s c v).resetCount = s.resetCount := by rfl

@[simp] theorem raiseError_hasher (s : State) (c : RspCode) : (raiseError s c).hasher = s.hasher := by rfl
@[simp] theorem raiseError_inputs (s : State) (c : RspCode) : (raiseError s c).inputs = s.inputs := by rfl
@[simp] theorem raiseError_responses (s : State) (c : RspCode) :
    (raiseError s c).responses = s.responses ++ [responseWord c 0] := by rfl
@[simp] theorem raiseError_resetCount (s : State) (c : RspCode) : (raiseError s c).resetCount = s.resetCount := by rfl

@[simp] theorem hardwareReset_hasher (s : State) :
    (hardwareReset s).hasher = Hasher.afterReset (s.resetCount + 1) := by rfl
@[simp] theorem hardwareReset_inputs (s : State) : (hardwareReset s).inputs = s.inputs := by rfl
@[simp] theorem hardwareReset_responses (s : State) : (hardwareReset s).responses = s.responses := by rfl
@[simp] theorem hardwareReset_resetCount (s : State) : (hardwareReset s).resetCount = s.resetCount + 1 := by rfl

@[simp] theorem afterReset_inited (k : Nat) : (Hasher.afterReset k).inited = false := by rfl
@[simp] theorem afterReset_carry (k : Nat) : (Hasher.afterReset k).carry = [] := by rfl

@[simp] theorem initState_inited (s : Word) : (initState s).inited = true := by rfl
@[simp] theorem initState_seed (s : Word) : (initState s).seed = s := by rfl
@[simp] theorem initState_lanes (s : Word) : (initState s).lanes = initLanes s := by rfl
@[simp] theorem initState_totalLength (s : Word) : (initState s).totalLength = 0 := by rfl
@[simp] theorem initState_carryLen (s : Word) : (initState s).carryLen = 0 := by rfl
@[simp] theorem initState_carry (s : Word) : (initState s).carry = [] := by rfl

@[simp] theorem setCarryLen_inited (h : Hasher) (n : Nat) : (setCarryLen h n).inited = h.inited := by rfl
@[simp] theorem setCarryLen_seed (h : Hasher) (n : Nat) : (setCarryLen h n).seed = h.seed := by rfl
@[simp] theorem setCarryLen_lanes (h : Hasher) (n : Nat) : (setCarryLen h n).lanes = h.lanes := by rfl
@[simp] theorem setCarryLen_totalLength (h : Hasher) (n : Nat) : (setCarryLen h n).totalLength = h.totalLength := by rfl
@[simp] theorem setCarryLen_carryLen (h : Hasher) (n : Nat) : (setCarryLen h n).carryLen = BitVec.ofNat 5 n := by rfl
@[simp] theorem setCarryLen_carry (h : Hasher) (n : Nat) : (setCarryLen h n).carry = keepBelow h.carry n := by rfl

@[simp] theorem addLength_inited (h : Hasher) (n : Nat) : (addLength h n).inited = h.inited := by rfl
@[simp] theorem addLength_seed (h : Hasher) (n : Nat) : (addLength h n).seed = h.seed := by rfl
@[simp] theorem addLength_lanes (h : Hasher) (n : Nat) : (addLength h n).lanes = h.lanes := by rfl
@[simp] theorem addLength_totalLength (h : Hasher) (n : Nat) :
    (addLength h n).totalLength = h.totalLength + BitVec.ofNat 64 n := by rfl
@[simp] theorem addLength_carryLen (h : Hasher) (n : Nat) : (addLength h n).carryLen = h.carryLen := by rfl
@[simp] theorem addLength_carry (h : Hasher) (n : Nat) : (addLength h n).carry = h.carry := by rfl

end Sys2Proof.Machine
end

