-- ==== Sys2Proof/Laws/Memory.lean ====
section
/-! SUPPORT. The carry buffer: a read after a write, the one form that every operation keeps, and what the
operations do on a carry that lists its cells from index 0 without a gap. -/

namespace Sys2Proof.Machine

/-! ### Read after write -/

theorem readCell_writeCell_same (m : Memory) (a : Nat) (b : Byte) : readCell (writeCell m a b) a = some b := by
  induction m with
  | nil => simp [writeCell, readCell]
  | cons c rest ih =>
    obtain ⟨k, v⟩ := c
    simp only [writeCell]
    split
    · simp [readCell]
    · split
      · simp [readCell]
      · rename_i h1 h2
        simp [readCell, ih, Ne.symm h2]

theorem readCell_writeCell_other (m : Memory) (a a' : Nat) (b : Byte) (h : a' ≠ a) :
    readCell (writeCell m a b) a' = readCell m a' := by
  induction m with
  | nil => simp [writeCell, readCell, Ne.symm h]
  | cons c rest ih =>
    obtain ⟨k, v⟩ := c
    simp only [writeCell]
    split
    · simp [readCell, Ne.symm h]
    · split
      · rename_i h1 h2
        subst h2
        simp [readCell, Ne.symm h]
      · simp [readCell, ih]

theorem readCell_keepBelow (m : Memory) (n a : Nat) :
    readCell (keepBelow m n) a = if a < n then readCell m a else none := by
  induction m with
  | nil => simp [keepBelow, readCell]
  | cons c rest ih =>
    obtain ⟨k, v⟩ := c
    simp only [keepBelow] at ih
    by_cases hk : k < n
    · by_cases hka : k = a
      · subst hka
        simp [keepBelow, readCell, hk]
      · simp [keepBelow, readCell, hk, hka, ih]
    · by_cases hka : k = a
      · subst hka
        simp [keepBelow, hk, ih]
      · simp [keepBelow, readCell, hk, hka, ih]

/-! ### The one form is kept -/

theorem mem_writeCell {m : Memory} {a : Nat} {b : Byte} {c : Host.Cell} (h : c ∈ writeCell m a b) :
    c = (a, b) ∨ c ∈ m := by
  induction m with
  | nil => simpa [writeCell] using h
  | cons d rest ih =>
    obtain ⟨k, v⟩ := d
    simp only [writeCell] at h
    split at h
    · simpa using h
    · split at h
      · simp only [List.mem_cons] at h ⊢
        tauto
      · simp only [List.mem_cons] at h ⊢
        rcases h with h | h
        · exact .inr (.inl h)
        · rcases ih h with h | h <;> simp [h]

theorem writeCell_wf {m : Memory} (hm : m.wf) {a : Nat} (ha : a < Config.carryCap) (b : Byte) :
    (writeCell m a b).wf := by
  refine ⟨?_, fun c hc => ?_⟩
  · obtain ⟨hp, -⟩ := hm
    induction m with
    | nil => simp [writeCell]
    | cons d rest ih =>
      obtain ⟨k, v⟩ := d
      rw [List.pairwise_cons] at hp
      simp only [writeCell]
      split
      · rename_i h1
        simp only [List.pairwise_cons, List.mem_cons, forall_eq_or_imp]
        exact ⟨⟨h1, fun x hx => lt_trans h1 (hp.1 x hx)⟩, hp.1, hp.2⟩
      · split
        · rename_i h1 h2
          subst h2
          exact List.pairwise_cons.2 ⟨hp.1, hp.2⟩
        · rename_i h1 h2
          refine List.pairwise_cons.2 ⟨fun x hx => ?_, ih hp.2⟩
          rcases mem_writeCell hx with rfl | hx
          · show k < a
            omega
          · exact hp.1 x hx
  · rcases mem_writeCell hc with rfl | hc
    · exact ha
    · exact hm.2 c hc

theorem keepBelow_wf {m : Memory} (hm : m.wf) (n : Nat) : (keepBelow m n).wf :=
  ⟨hm.1.filter _, fun c hc => hm.2 c (List.mem_filter.1 hc).1⟩

/-- What `memWrite` can do: it answers the one form again, or it names an index outside the buffer. -/
theorem memWrite_wf {m m' : Memory} {a : Nat} {bytes : List Byte} (hm : m.wf)
    (h : memWrite m a bytes = .ok m') : m'.wf := by
  induction bytes generalizing m a with
  | nil => simp only [memWrite, Except.ok.injEq] at h; exact h ▸ hm
  | cons b bs ih =>
    simp only [memWrite] at h
    split at h
    · rename_i ha
      exact ih (writeCell_wf hm ha b) h
    · cases h

theorem reset_carry_wf : State.reset.hasher.carry.wf := by
  simp [State.reset, Memory.wf]

/-! ### A carry that lists its cells from index 0 -/

@[simp] theorem cellsFrom_nil (a : Nat) : cellsFrom a [] = [] := rfl

@[simp] theorem cellsFrom_cons (a : Nat) (b : Byte) (bs : List Byte) :
    cellsFrom a (b :: bs) = (a, b) :: cellsFrom (a + 1) bs := rfl

theorem cellsFrom_append (a : Nat) (z y : List Byte) :
    cellsFrom a (z ++ y) = cellsFrom a z ++ cellsFrom (a + z.length) y := by
  induction z generalizing a with
  | nil => simp
  | cons b bs ih => simp [ih, Nat.add_assoc, Nat.add_comm 1]

@[simp] theorem map_snd_cellsFrom (a : Nat) (z : List Byte) : (cellsFrom a z).map Prod.snd = z := by
  induction z generalizing a with
  | nil => rfl
  | cons b bs ih => simp [ih]

theorem map_fst_cellsFrom (a : Nat) (z : List Byte) :
    (cellsFrom a z).map Prod.fst = List.range' a z.length := by
  induction z generalizing a with
  | nil => rfl
  | cons b bs ih => simp [ih, List.range'_succ]

/-- A list of cells whose indices count up from `a` is its bytes as cells from `a`. -/
theorem eq_cellsFrom {m : Memory} {a : Nat} (h : m.map Prod.fst = List.range' a m.length) :
    m = cellsFrom a (m.map Prod.snd) := by
  induction m generalizing a with
  | nil => rfl
  | cons c rest ih =>
    obtain ⟨k, v⟩ := c
    simp only [List.map_cons, List.length_cons, List.range'_succ, List.cons.injEq] at h
    obtain ⟨rfl, h⟩ := h
    simpa using ih h

theorem mem_cellsFrom {a : Nat} {z : List Byte} {c : Host.Cell} (h : c ∈ cellsFrom a z) :
    a ≤ c.1 ∧ c.1 < a + z.length := by
  have : c.1 ∈ List.range' a z.length := by
    rw [← map_fst_cellsFrom]
    exact List.mem_map_of_mem h
  simpa [List.mem_range'_1] using this

theorem cellsFrom_wf {z : List Byte} (h : z.length ≤ Config.carryCap) : (cellsFrom 0 z).wf := by
  refine ⟨?_, fun c hc => ?_⟩
  · have : ((cellsFrom 0 z).map Prod.fst).Pairwise (· < ·) := by
      rw [map_fst_cellsFrom]
      exact List.pairwise_lt_range'
    simpa [List.pairwise_map] using this
  · have := (mem_cellsFrom hc).2
    omega

theorem readCell_cellsFrom (a i : Nat) (z : List Byte) : readCell (cellsFrom a z) (a + i) = z[i]? := by
  induction z generalizing a i with
  | nil => simp [readCell]
  | cons b bs ih =>
    cases i with
    | zero => simp [readCell]
    | succ i =>
      have := ih (a + 1) i
      rw [show a + 1 + i = a + (i + 1) by omega] at this
      simp [readCell, this]

theorem keepBelow_cellsFrom (a n : Nat) (z : List Byte) :
    keepBelow (cellsFrom a z) n = cellsFrom a (z.take (n - a)) := by
  induction z generalizing a with
  | nil => simp [keepBelow]
  | cons b bs ih =>
    have ih := ih (a + 1)
    simp only [keepBelow] at ih
    by_cases ha : a < n
    · obtain ⟨k, hk⟩ : ∃ k, n - a = k + 1 := ⟨n - a - 1, by omega⟩
      simp [keepBelow, ha, hk, ih, show n - (a + 1) = k by omega]
    · simp [keepBelow, ha, ih, show n - a = 0 by omega, show n - (a + 1) = 0 by omega]

theorem writeCell_end (a : Nat) (z : List Byte) (b : Byte) :
    writeCell (cellsFrom a z) (a + z.length) b = cellsFrom a (z ++ [b]) := by
  induction z generalizing a with
  | nil => simp [writeCell]
  | cons c cs ih =>
    have := ih (a + 1)
    rw [show a + 1 + cs.length = a + (cs.length + 1) by omega] at this
    simp [writeCell, this]

/-- An append at the fill index (R143, R144). -/
theorem memWrite_end (z bytes : List Byte) (h : z.length + bytes.length ≤ Config.carryCap) :
    memWrite (cellsFrom 0 z) z.length bytes = .ok (cellsFrom 0 (z ++ bytes)) := by
  induction bytes generalizing z with
  | nil => simp [memWrite]
  | cons b bs ih =>
    simp only [List.length_cons] at h
    have hw := writeCell_end 0 z b
    simp only [Nat.zero_add] at hw
    have := ih (z ++ [b]) (by simp; omega)
    simp only [List.length_append, List.length_singleton, List.append_assoc, List.singleton_append] at this
    simp [memWrite, show z.length < Config.carryCap by omega, hw, this]

theorem fetchCell_cellsFrom {z : List Byte} {i : Nat} (hi : i < z.length) (h : z.length ≤ Config.carryCap) :
    fetchCell (cellsFrom 0 z) i = .ok z[i] := by
  have := readCell_cellsFrom 0 i z
  simp only [Nat.zero_add] at this
  simp [fetchCell, show i < Config.carryCap by omega, this, hi]

/-- A read of cells that hold values answers those values. -/
theorem fetchCells_cellsFrom {z : List Byte} {a n : Nat} (hn : a + n ≤ z.length)
    (h : z.length ≤ Config.carryCap) : fetchCells (cellsFrom 0 z) a n = .ok ((z.drop a).take n) := by
  induction n generalizing a with
  | zero => simp [fetchCells]
  | succ n ih =>
    have hd : z.drop a = z[a] :: z.drop (a + 1) := List.drop_eq_getElem_cons (by omega)
    rw [hd, List.take_succ_cons]
    simp [fetchCells, fetchCell_cellsFrom (show a < z.length by omega) h,
      ih (show a + 1 + n ≤ z.length by omega), bind, Except.bind, pure, Except.pure]

/-! ### The carry of a state that meets the invariant -/

/-- Under the invariant the carry is its valid bytes, listed from index 0. -/
theorem carry_eq_cellsFrom {h : Hasher} (hw : h.wf) (hi : h.inited = true) :
    h.carry = cellsFrom 0 (carryBytes h) := by
  have hk := (hw.2 hi).2.1
  refine eq_cellsFrom ?_
  rw [hk, List.range_eq_range']
  congr 1
  simpa using (congrArg List.length hk).symm

theorem carryBytes_length {h : Hasher} (hw : h.wf) (hi : h.inited = true) :
    (carryBytes h).length = h.carryLen.toNat := by
  simpa [carryBytes] using congrArg List.length (hw.2 hi).2.1

theorem carryLen_lt {h : Hasher} (hw : h.wf) (hi : h.inited = true) : h.carryLen.toNat < 16 := by
  have := (hw.2 hi).1
  omega

theorem carryBytes_of_cellsFrom {h : Hasher} {z : List Byte} (hc : h.carry = cellsFrom 0 z) :
    carryBytes h = z := by
  simp [carryBytes, hc]

end Sys2Proof.Machine
end

