-- ==== Sys2Proof/Laws/Mixer.lean ====
section
/-! SUPPORT. The round in Lean's own operations, and why a zero word changes every lane that is not zero
(42_absorb.md R150): `rotl(x, 13) * PRIME1 = x` would make the low 19 bits of `x` a fixed multiple, modulo 2^32, of its
high 13 bits, and no value of those bits but zero makes that multiple small enough. -/

namespace Sys2Proof.Machine

theorem roundLane_eq (acc w : Word) :
    roundLane acc w = (acc + w * 0x85EBCA77#32).rotateLeft 13 * 0x9E3779B1#32 := by
  rw [roundLane, mul32_eq, mul32_eq, add32_eq, rotl32_eq, Config.prime1, Config.prime2]

theorem roundLane_zero (acc : Word) : roundLane acc 0 = acc.rotateLeft 13 * 0x9E3779B1#32 := by
  rw [roundLane_eq, show (0 : Word) = 0#32 from rfl, BitVec.zero_mul, BitVec.add_zero]

/-- `ROTL32` as a number (R113). -/
theorem rotl32_toNat (x : Word) {r : Nat} (h1 : 1 ≤ r) (h2 : r ≤ 31) :
    (rotl32 x r).toNat = (x.toNat * 2 ^ r) % 2 ^ 32 + x.toNat / 2 ^ (32 - r) := by
  have hr : r % 32 = r := Nat.mod_eq_of_lt (by omega)
  rw [rotl32_eq, BitVec.toNat_rotateLeft, hr, Nat.shiftRight_eq_div_pow, Nat.shiftLeft_eq]
  have hlt : x.toNat / 2 ^ (32 - r) < 2 ^ r := by
    rw [Nat.div_lt_iff_lt_mul (by positivity), ← Nat.pow_add, show r + (32 - r) = 32 by omega]
    exact x.isLt
  have hd : (x.toNat * 2 ^ r) % 2 ^ 32 = 2 ^ r * (x.toNat % 2 ^ (32 - r)) := by
    rw [show (2 : ℕ) ^ 32 = 2 ^ r * 2 ^ (32 - r) by rw [← Nat.pow_add]; congr 1; omega, Nat.mul_comm,
      Nat.mul_mod_mul_left]
  rw [hd]
  exact (Nat.two_pow_add_eq_or_of_lt hlt _).symm

/-- A fixed point with low part `l` and high part `h`, over the integers: `d` is the inverse of `8192 p - 1`. -/
theorem fixed_point_low {l h k p m d u c v : Int} (h1 : (8192 * p - 1) * d = 1 + m * u)
    (h2 : (524288 - p) * d = c + m * v) (e : (l * 8192 + h) * p = l + h * 524288 + m * k) :
    l = h * c + m * (k * d + h * v - l * u) := by
  linear_combination d * e - l * h1 + h * h2

theorem fixed_point_mod {l h p m c : Nat} {d u v : Int} (h1 : (8192 * (p : Int) - 1) * d = 1 + m * u)
    (h2 : (524288 - (p : Int)) * d = c + m * v) (hl : l < m) (e : ((l * 8192 + h) * p) % m = l + h * 524288) :
    h * c % m = l := by
  have hd := Nat.div_add_mod ((l * 8192 + h) * p) m
  rw [e] at hd
  generalize (l * 8192 + h) * p / m = k at hd
  have hk : (m : Int) * k + (l + h * 524288) = (l * 8192 + h) * p := by exact_mod_cast hd
  have key := fixed_point_low (k := k) h1 h2 (by rw [← hk]; ring)
  have hc : ((h * c : Nat) : Int) % (m : Int) = (l : Int) % (m : Int) := by
    have : ((h * c : Nat) : Int) = l - m * (k * d + h * v - l * u) := by push_cast; linarith
    rw [this, Int.sub_mul_emod_self_left]
  have hn : h * c % m = l % m := by exact_mod_cast hc
  rw [hn, Nat.mod_eq_of_lt hl]

theorem round_fixed_point {l h : Nat} (hl : l < 524288)
    (e : ((l * 8192 + h) * 2654435761) % 4294967296 = l + h * 524288) : h * 3149633969 % 4294967296 = l :=
  fixed_point_mod (d := 2362040319) (u := 11958855231623) (v := -1459532861) (by norm_num) (by norm_num) (lt_trans hl (by norm_num)) e

theorem high_part_check :
    ((List.range 8192).all (fun h => h == 0 || decide (524288 ≤ h * 3149633969 % 4294967296))) = true := by
  decide +kernel

theorem split_word {x : Nat} (hx : x < 2 ^ 32) :
    (x * 2 ^ 13) % 2 ^ 32 = (x % 524288) * 8192 ∧ x / 524288 < 8192 ∧ x % 524288 < 524288 ∧
      x = x % 524288 + x / 524288 * 524288 := by
  omega

/-- R150: a zero word still changes a non-zero lane. -/
theorem roundLane_zero_ne {acc : Word} (h0 : acc ≠ 0) : roundLane acc 0 ≠ acc := by
  intro h
  rw [roundLane_zero] at h
  have h1 := congrArg BitVec.toNat h
  have h2 := rotl32_toNat acc (r := 13) (by decide) (by decide)
  rw [BitVec.toNat_mul, ← rotl32_eq, h2, BitVec.toNat_ofNat] at h1
  have hx := acc.isLt
  have hne : acc.toNat ≠ 0 := fun q => h0 (BitVec.eq_of_toNat_eq q)
  clear h h2 h0
  generalize acc.toNat = x at *
  obtain ⟨e1, hhi, hlo, hxe⟩ := split_word hx
  rw [e1, show x / 2 ^ (32 - 13) = x / 524288 from rfl] at h1
  generalize x / 524288 = hi at *
  generalize x % 524288 = lo at *
  rw [hxe] at h1 hne
  have key := round_fixed_point hlo h1
  have hr := List.all_eq_true.1 high_part_check hi (List.mem_range.2 hhi)
  rw [Bool.or_eq_true, beq_iff_eq, decide_eq_true_eq, key] at hr
  rcases hr with hr | hr
  · subst hr
    rw [Nat.zero_mul, Nat.zero_mod] at key
    apply hne
    rw [← key]
  · exact absurd hlo (not_lt.2 hr)

end Sys2Proof.Machine
end

