-- ==== Sys2Proof/Laws/Ops.lean ====
section
/-! SUPPORT. What the shared operations and the step can do, said once. -/

namespace Sys2Proof.Machine

/-! ### The check of `inited` and the end of a command -/

theorem whenInited_true {s : State} (h : s.hasher.inited = true) (go : Host.Outcome State Fault Refusal) :
    whenInited s go = go := by
  simp [whenInited, h]

theorem whenInited_false {s : State} (h : s.hasher.inited = false) (go : Host.Outcome State Fault Refusal) :
    whenInited s go = .next (raiseError s .errUninit) := by
  simp [whenInited, h]

/-- If the check lets a command answer a next state, the core was uninitialised and the error was raised, or
it was initialised and the command itself gave that state. -/
theorem whenInited_next {s t : State} {go : Host.Outcome State Fault Refusal} (h : whenInited s go = .next t) :
    (s.hasher.inited = false ∧ t = raiseError s .errUninit) ∨ (s.hasher.inited = true ∧ go = .next t) := by
  unfold whenInited at h
  split at h
  · exact .inr ⟨‹_›, h⟩
  · rename_i hi
    injection h with h
    exact .inl ⟨by simpa using hi, h.symm⟩

/-- A command ends in a next state exactly when its hasher was computed. -/
theorem finish_next {s t : State} {r : Except Fault Hasher} {c : RspCode} {v : Word}
    (h : finish s r c v = .next t) : ∃ k, r = .ok k ∧ t = respond { s with hasher := k } c v := by
  cases r with
  | ok k =>
    simp only [finish, Host.Outcome.next.injEq] at h
    exact ⟨k, rfl, h.symm⟩
  | error f => simp [finish] at h

/-! ### The three meanings, by what they answer -/

theorem execAbsorb_next {b : List Byte} {s t : State} (h : execAbsorb b s = .next t) :
    (s.hasher.inited = false ∧ t = raiseError s .errUninit) ∨
    (s.hasher.inited = true ∧ lengthFits s.hasher b = true ∧
      ∃ k, absorb b s.hasher = .ok k ∧ t = respond { s with hasher := k } .ok 0) := by
  rcases whenInited_next h with h | ⟨hi, h⟩
  · exact .inl h
  · split at h
    · obtain ⟨k, hk, ht⟩ := finish_next h
      exact .inr ⟨hi, ‹_›, k, hk, ht⟩
    · cases h

theorem execFinalize_next {s t : State} (h : execFinalize s = .next t) :
    (s.hasher.inited = false ∧ t = raiseError s .errUninit) ∨
    (s.hasher.inited = true ∧ ∃ d, digest s.hasher = .ok d ∧
      t = respond { s with hasher := initState s.hasher.seed } .digest d) := by
  rcases whenInited_next h with h | ⟨hi, h⟩
  · exact .inl h
  · split at h
    · rename_i d hd
      injection h with h
      exact .inr ⟨hi, d, hd, h.symm⟩
    · cases h

/-! ### The step, by the event it takes -/

theorem step_idle {s : State} (h : s.inputs = []) : step s = .next s := by
  simp [step, nextEvent, h]

theorem step_hardwareReset {s : State} {rest : List HostEvent} (h : s.inputs = .hardwareReset :: rest) :
    step s = .next (hardwareReset { s with inputs := rest }) := by
  simp [step, nextEvent, h]

theorem step_command {s : State} {w : CommandWord} {rest : List HostEvent} {i : Instr}
    (h : s.inputs = .command w :: rest) (hd : decode w = .ok i) :
    step s = exec i { s with inputs := rest } := by
  simp [step, nextEvent, h, hd]

theorem step_illegal {s : State} {w : CommandWord} {rest : List HostEvent} {e : Illegal}
    (h : s.inputs = .command w :: rest) (hd : decode w = .error e) :
    step s = .next (raiseError { s with inputs := rest } .errIllegal) := by
  simp [step, nextEvent, h, hd]

/-- Everything a step that answers a next state can have done. -/
theorem step_next_cases {s t : State} (h : step s = .next t) :
    (s.inputs = [] ∧ t = s) ∨
    (∃ rest, s.inputs = .hardwareReset :: rest ∧ t = hardwareReset { s with inputs := rest }) ∨
    (∃ w rest e, s.inputs = .command w :: rest ∧ decode w = .error e ∧
      t = raiseError { s with inputs := rest } .errIllegal) ∨
    (∃ w rest i, s.inputs = .command w :: rest ∧ decode w = .ok i ∧ exec i { s with inputs := rest } = .next t) := by
  rcases hin : s.inputs with _ | ⟨e, rest⟩
  · rw [step_idle hin] at h
    injection h with h
    exact .inl ⟨rfl, h.symm⟩
  · cases e with
    | hardwareReset =>
      rw [step_hardwareReset hin] at h
      injection h with h
      exact .inr (.inl ⟨rest, rfl, h.symm⟩)
    | command w =>
      cases hd : decode w with
      | ok i =>
        rw [step_command hin hd] at h
        exact .inr (.inr (.inr ⟨w, rest, i, rfl, hd, h⟩))
      | error e =>
        rw [step_illegal hin hd] at h
        injection h with h
        exact .inr (.inr (.inl ⟨w, rest, e, rfl, hd, h.symm⟩))

/-- A command answers a next state only in these ways (the frame of all three: `inputs` and `resetCount` stay,
and one response is added). -/
theorem exec_next_frame {i : Instr} {s t : State} (h : exec i s = .next t) :
    t.inputs = s.inputs ∧ t.resetCount = s.resetCount ∧ ∃ r, t.responses = s.responses ++ [r] := by
  cases i with
  | init seed =>
    simp only [exec, execInit, Host.Outcome.next.injEq] at h
    subst h
    exact ⟨rfl, rfl, _, rfl⟩
  | absorb b =>
    rcases execAbsorb_next h with ⟨-, rfl⟩ | ⟨-, -, k, -, rfl⟩ <;> exact ⟨rfl, rfl, _, rfl⟩
  | finalize =>
    rcases execFinalize_next h with ⟨-, rfl⟩ | ⟨-, d, -, rfl⟩ <;> exact ⟨rfl, rfl, _, rfl⟩

/-! ### Runs -/

theorem run_zero (s : State) : run 0 s = .next s := rfl

/-- A run goes on from what its first step answers. -/
theorem run_succ {s t : State} (n : Nat) (h : step s = .next t) : run (n + 1) s = run n t := by
  rw [run, h]

/-- A run of `n + m` steps is a run of `n`, then one of `m`. -/
theorem run_add {s t : State} (n m : Nat) (h : run n s = .next t) : run (n + m) s = run m t := by
  induction n generalizing s with
  | zero =>
    rw [run_zero, Host.Outcome.next.injEq] at h
    rw [Nat.zero_add, h]
  | succ n ih =>
    rw [Nat.add_right_comm]
    cases hs : step s with
    | next u =>
      rw [run_succ _ hs] at h ⊢
      exact ih h
    | fault f => simp [run, hs] at h
    | refused r => simp [run, hs] at h

/-! ### Carry writes inside `Absorb` -/

/-- What `memWrite` then `setCarryLen` leave of the other elements. -/
theorem absorbBuffer_ok {b : List Byte} {h k : Hasher} (hk : absorbBuffer b h = .ok k) :
    ∃ m, memWrite h.carry h.carryLen.toNat b = .ok m ∧
      k = setCarryLen { h with carry := m } (h.carryLen.toNat + b.length) := by
  cases hm : memWrite h.carry h.carryLen.toNat b with
  | ok m =>
    simp only [absorbBuffer, hm, bind, Except.bind, pure, Except.pure, Except.ok.injEq] at hk
    exact ⟨m, rfl, hk.symm⟩
  | error f => simp [absorbBuffer, hm, bind, Except.bind] at hk

theorem absorbKeep_ok {rest : List Byte} {h k : Hasher} (hk : absorbKeep rest h = .ok k) :
    ∃ m, memWrite h.carry 0 rest = .ok m ∧ k = setCarryLen { h with carry := m } rest.length := by
  cases hm : memWrite h.carry 0 rest with
  | ok m =>
    simp only [absorbKeep, hm, bind, Except.bind, pure, Except.pure, Except.ok.injEq] at hk
    exact ⟨m, rfl, hk.symm⟩
  | error f => simp [absorbKeep, hm, bind, Except.bind] at hk

/-- Step 4 either finds the carry empty and does nothing, or mixes the one block it completes. -/
theorem absorbComplete_ok {b rest : List Byte} {h k : Hasher} (hk : absorbComplete b h = .ok (k, rest)) :
    (h.carryLen.toNat = 0 ∧ k = h ∧ rest = b) ∨
    (0 < h.carryLen.toNat ∧ ∃ m blk,
      memWrite h.carry h.carryLen.toNat (b.take (Config.blockBytes - h.carryLen.toNat)) = .ok m ∧
      memReadBlock m = .ok blk ∧
      k = setCarryLen { h with lanes := blockMix blk h.lanes, carry := m } 0 ∧
      rest = b.drop (Config.blockBytes - h.carryLen.toNat)) := by
  unfold absorbComplete at hk
  split at hk
  · rename_i hc
    refine .inr ⟨hc, ?_⟩
    cases hm : memWrite h.carry h.carryLen.toNat (b.take (Config.blockBytes - h.carryLen.toNat)) with
    | error f => simp [hm, bind, Except.bind] at hk
    | ok m =>
      cases hb : memReadBlock m with
      | error f => simp [hm, hb, bind, Except.bind] at hk
      | ok blk =>
        simp only [hm, hb, bind, Except.bind, pure, Except.pure, Except.ok.injEq, Prod.mk.injEq] at hk
        exact ⟨m, blk, rfl, hb, hk.1.symm, hk.2.symm⟩
  · rename_i hc
    simp only [pure, Except.pure, Except.ok.injEq, Prod.mk.injEq] at hk
    exact .inl ⟨by omega, hk.1.symm, hk.2.symm⟩

/-- What steps 4 to 6 can do when they answer. -/
theorem absorbBlocks_ok {b : List Byte} {h k : Hasher} (hk : absorbBlocks b h = .ok k) :
    ∃ g rest, absorbComplete b h = .ok (g, rest) ∧
      absorbKeep (rest.drop (Config.blockBytes * (rest.length / Config.blockBytes)))
        { g with lanes := mixBlocks (rest.length / Config.blockBytes) rest g.lanes } = .ok k := by
  cases hg : absorbComplete b h with
  | error f => simp [absorbBlocks, hg, bind, Except.bind] at hk
  | ok p =>
    obtain ⟨g, rest⟩ := p
    simp only [absorbBlocks, hg, bind, Except.bind] at hk
    exact ⟨g, rest, rfl, hk⟩

/-- What `Absorb` can do when it answers: nothing, buffer the chunk, or mix and keep the rest. -/
theorem absorb_ok {b : List Byte} {h k : Hasher} (hk : absorb b h = .ok k) :
    (b = [] ∧ k = h) ∨
    (b ≠ [] ∧ h.carryLen.toNat + b.length < Config.blockBytes ∧ absorbBuffer b (addLength h b.length) = .ok k) ∨
    (b ≠ [] ∧ Config.blockBytes ≤ h.carryLen.toNat + b.length ∧ absorbBlocks b (addLength h b.length) = .ok k) := by
  unfold absorb at hk
  split at hk
  · simp only [Except.ok.injEq] at hk
    exact .inl ⟨List.length_eq_zero_iff.1 ‹_›, hk.symm⟩
  · have hne : b ≠ [] := fun h0 => ‹¬ b.length = 0› (by simp [h0])
    split at hk
    · exact .inr (.inl ⟨hne, ‹_›, hk⟩)
    · exact .inr (.inr ⟨hne, by omega, hk⟩)

/-- Step 3 writes the carry and its fill index alone. -/
theorem absorbBuffer_frame {b : List Byte} {h k : Hasher} (hk : absorbBuffer b h = .ok k) :
    k.inited = h.inited ∧ k.seed = h.seed ∧ (h.carry.wf → k.carry.wf) := by
  obtain ⟨m, hm, rfl⟩ := absorbBuffer_ok hk
  refine ⟨by simp, by simp, fun hw => ?_⟩
  rw [setCarryLen_carry]
  exact keepBelow_wf (memWrite_wf hw hm) _

/-- Step 6 writes the carry and its fill index alone. -/
theorem absorbKeep_frame {rest : List Byte} {h k : Hasher} (hk : absorbKeep rest h = .ok k) :
    k.inited = h.inited ∧ k.seed = h.seed ∧ (h.carry.wf → k.carry.wf) := by
  obtain ⟨m, hm, rfl⟩ := absorbKeep_ok hk
  refine ⟨by simp, by simp, fun hw => ?_⟩
  rw [setCarryLen_carry]
  exact keepBelow_wf (memWrite_wf hw hm) _

/-- Step 4 writes the lanes, the carry and its fill index alone. -/
theorem absorbComplete_frame {b rest : List Byte} {h k : Hasher} (hk : absorbComplete b h = .ok (k, rest)) :
    k.inited = h.inited ∧ k.seed = h.seed ∧ (h.carry.wf → k.carry.wf) := by
  rcases absorbComplete_ok hk with ⟨-, rfl, -⟩ | ⟨-, m, blk, hm, -, rfl, -⟩
  · exact ⟨rfl, rfl, id⟩
  · refine ⟨by simp, by simp, fun hw => ?_⟩
    rw [setCarryLen_carry]
    exact keepBelow_wf (memWrite_wf hw hm) _

/-- `Absorb` never writes `seed` or `inited` (R140), and it keeps the one form of the carry. -/
theorem absorb_ok_frame {b : List Byte} {h k : Hasher} (hk : absorb b h = .ok k) :
    k.inited = h.inited ∧ k.seed = h.seed ∧ (h.carry.wf → k.carry.wf) := by
  rcases absorb_ok hk with ⟨-, rfl⟩ | ⟨-, -, hk⟩ | ⟨-, -, hk⟩
  · exact ⟨rfl, rfl, id⟩
  · simpa using absorbBuffer_frame hk
  · obtain ⟨g, rest, hg, hk⟩ := absorbBlocks_ok hk
    have h1 := absorbComplete_frame hg
    have h2 := absorbKeep_frame hk
    simp only [addLength_inited, addLength_seed, addLength_carry] at h1
    exact ⟨h2.1.trans h1.1, h2.2.1.trans h1.2.1, fun hw => h2.2.2 (h1.2.2 hw)⟩

end Sys2Proof.Machine
end

