-- ==== Sys2Proof/Laws/PerInstr.lean ====
section
/-! SUPPORT. What holds of every command as syntax, one lemma per constructor. Family `OpField`: the canonical
word of a command carries the operation code that R86 gives the command. -/

namespace Sys2Proof.Laws.OpField

/-- The operation code of a command (R86). -/
def opcode (i : Instr) : BitVec 3 :=
  match i with
  | .init _ => 0b001#3
  | .absorb _ => 0b010#3
  | .finalize => 0b011#3

/-- `OP`, the bits 135 to 133 of the canonical word, is the command's operation code. -/
def Statement (i : Instr) : Prop := opField (encode i) = opcode i

/-- The `OP` field of a word put together from its three fields. -/
theorem opField_commandWord (op : BitVec 3) (len data : Nat) : opField (commandWord op len data) = op := by
  apply BitVec.eq_of_getLsbD_eq
  intro i hi
  simp only [opField, commandWord, BitVec.getLsbD_extractLsb', BitVec.getLsbD_append]
  simp [hi, show ¬ 133 + i < 128 by omega, show ¬ 133 + i - 128 < 5 by omega, show 133 + i - 128 - 5 = i by omega]

theorem init (seed : Word) : Statement (.init seed) := opField_commandWord _ _ _

theorem absorb (chunk : List Byte) : Statement (.absorb chunk) := opField_commandWord _ _ _

theorem finalize : Statement .finalize := opField_commandWord _ _ _

end Sys2Proof.Laws.OpField
end

