-- ==== Sys2Proof/Tests/Slice0.lean ====
section
/-! SUPPORT. Tests of the model, their expected results from spec/ (the vector is named at each), and one witness
per statement that has hypotheses: concrete states and operands that meet them, at the ends of each clause. -/

namespace Sys2Proof.Tests

open Sys2Proof.Machine

/-! ### States by helper -/

/-- `n` bytes counting up from `a` ("the ramp" of 95_test_vectors.md, from offset `a`). -/
def ramp (a n : Nat) : List Byte := (List.range n).map (fun k => BitVec.ofNat 8 (a + k))

/-- A core in a computation under seed 0: its lanes, its total length, its valid carry bytes. -/
def hasher0 (lanes : Lanes) (total : Nat) (carry : List Byte) : Hasher where
  inited := true
  seed := 0
  lanes := lanes
  totalLength := BitVec.ofNat 64 total
  carryLen := BitVec.ofNat 5 carry.length
  carry := cellsFrom 0 carry

/-- The lanes after the ramp's first block under seed 0 (V22.1). -/
def lanes16 : Lanes := ⟨0xF817BCCB#32, 0x0222719B#32, 0xD4B0C0A4#32, 0xDEBB7574#32⟩

/-- A core in the SHORT or EMPTY phase under seed 0. -/
def short (carry : List Byte) : Hasher := hasher0 (initLanes 0) carry.length carry

/-- A core in the LONG phase under seed 0: one block of the ramp mixed. -/
def long (carry : List Byte) : Hasher := hasher0 lanes16 (16 + carry.length) carry

/-- A core about to reach the length limit. -/
def full : Hasher := hasher0 lanes16 (2 ^ 64 - 1) (ramp 0 15)

def machine (h : Hasher) (inputs : List HostEvent) : State where
  hasher := h
  inputs := inputs
  responses := []
  resetCount := 0

/-- The machine after hardware reset, with these events presented. -/
def fresh (inputs : List HostEvent) : State := { State.reset with inputs := inputs }

def hasherAfter (o : Host.Outcome State Fault Refusal) : Option Hasher :=
  match o with
  | .next t => some t.hasher
  | .fault _ => none
  | .refused _ => none

def responsesAfter (o : Host.Outcome State Fault Refusal) : Option (List ResponseWord) :=
  match o with
  | .next t => some t.responses
  | .fault _ => none
  | .refused _ => none

/-! ### Well-formedness -/

theorem test_chunk_of_17_bytes_is_ill_formed : ¬ (Instr.absorb (ramp 0 17)).WellFormed := by decide

theorem test_chunk_of_16_bytes_is_well_formed : (Instr.absorb (ramp 0 16)).WellFormed := by decide

/-! ### Decoding: the words of R96 and V50, written out -/

theorem test_decode_init : decode 0x200000000000000000000000009E3779B1#136 = .ok (.init 0x9E3779B1#32) := by decide

theorem test_decode_init_ignored_bits : decode 0x3FFFFFFFFFFFFFFFFFFFFFFFFF00000001#136 = .ok (.init 1) := by decide

theorem test_decode_absorb :
    decode 0x4400000000000000000000000074736574#136 = .ok (.absorb [0x74#8, 0x65#8, 0x73#8, 0x74#8]) := by decide

theorem test_decode_absorb_full :
    decode 0x500F0E0D0C0B0A09080706050403020100#136 = .ok (.absorb (ramp 0 16)) := by decide

theorem test_decode_finalize : decode 0x7FFFFFFFFFFFFFFFFFFFFFFFFFFFFFFFFF#136 = .ok .finalize := by decide

/-- V50.1, V50.9, V50.10, V50.13 to V50.16. -/
theorem test_decode_illegal :
    decode 0x0000000000000000000000000000000000#136 = .error (.reservedOp 0b000#3) ∧
    decode 0x5100000000000000000000000000000061#136 = .error (.chunkTooLong 17#5) ∧
    decode 0x5F00000000000000000000000000000000#136 = .error (.chunkTooLong 31#5) ∧
    decode 0x8000000000000000000000000000000000#136 = .error (.reservedOp 0b100#3) ∧
    decode 0xA000000000000000000000000000000000#136 = .error (.reservedOp 0b101#3) ∧
    decode 0xC000000000000000000000000000000000#136 = .error (.reservedOp 0b110#3) ∧
    decode 0xFFFFFFFFFFFFFFFFFFFFFFFFFFFFFFFFFF#136 = .error (.reservedOp 0b111#3) := by decide

/-- The third row of the opcode table: LEN is 16. -/
theorem test_table_word_absorb_16 :
    decodeTableWord 136 0x5000000000000000000000000000000000 = some (.absorb (List.replicate 16 0#8)) := by decide

/-! ### One step -/

/-- V20.3: the lanes wrap. -/
theorem test_init_largest_seed :
    hasherAfter (exec (.init 0xFFFFFFFF#32) State.reset) = some
      { inited := true, seed := 0xFFFFFFFF#32,
        lanes := ⟨0x24234427#32, 0x85EBCA76#32, 0xFFFFFFFF#32, 0x61C8864E#32⟩,
        totalLength := 0, carryLen := 0, carry := [] } := by decide

/-- V23.4: a chunk that fills the carry to 15 bytes mixes nothing. -/
theorem test_absorb_buffers_up_to_15 :
    hasherAfter (exec (.absorb (ramp 4 11)) (machine (short (ramp 0 4)) [])) = some (short (ramp 0 15)) := by decide

/-- V23.8: 15 carried bytes and 16 new ones; one block mixed, 15 carried again. -/
theorem test_absorb_completes_a_block :
    hasherAfter (exec (.absorb (ramp 15 16)) (machine (short (ramp 0 15)) [])) = some (long (ramp 16 15)) := by
  decide

/-- V40.16: ramp(15) under seed 0, the longest tail, three words and three bytes, on the short branch. -/
theorem test_finalize_longest_tail :
    responsesAfter (exec .finalize (machine (short (ramp 0 15)) [])) = some [0x157C01ECE#34] := by decide

/-- V30.2: 2^32 + 5 bytes take the long branch, and fold only the 5. -/
theorem test_finalize_beyond_32_bits :
    responsesAfter (exec .finalize (machine (hasher0 lanes16 (2 ^ 32 + 5) (ramp 16 5)) [])) = some [0x195C7C3B7#34] := by
  decide

/-- V50.9 from UNINIT: the illegal word wins over the missing INIT (R225). -/
theorem test_illegal_before_uninit :
    responsesAfter (step (fresh [.command 0x5100000000000000000000000000000061#136])) = some [0x200000000#34] := by
  decide

/-- V50.11 from UNINIT. -/
theorem test_finalize_before_init :
    responsesAfter (step (fresh [.command 0x6000000000000000000000000000000000#136])) = some [0x300000000#34] := by
  decide

/-- V3: `hash("test", 0)`. -/
theorem test_xxh32_test : xxh32 0 [0x74#8, 0x65#8, 0x73#8, 0x74#8] = 0x3E2023CF#32 := by decide

/-! ### Witnesses: encoding and decoding -/

theorem witness_DecodeReadsTheFields :
    (0x3FFFFFFFFFFFFFFFFFFFFFFFFF00000001#136).extractLsb' 133 3 = 0b001#3 ∧
    ((0x40AAAAAAAAAAAAAAAAAAAAAAAAAAAAAAAA#136).extractLsb' 133 3 = 0b010#3 ∧
      ((0x40AAAAAAAAAAAAAAAAAAAAAAAAAAAAAAAA#136).extractLsb' 128 5).toNat ≤ 16) ∧
    ((0x500F0E0D0C0B0A09080706050403020100#136).extractLsb' 133 3 = 0b010#3 ∧
      ((0x500F0E0D0C0B0A09080706050403020100#136).extractLsb' 128 5).toNat ≤ 16) ∧
    (0x7FFFFFFFFFFFFFFFFFFFFFFFFFFFFFFFFF#136).extractLsb' 133 3 = 0b011#3 ∧
    ((0x5100000000000000000000000000000061#136).extractLsb' 133 3 = 0b010#3 ∧
      16 < ((0x5100000000000000000000000000000061#136).extractLsb' 128 5).toNat) ∧
    ((0x8000000000000000000000000000000000#136).extractLsb' 133 3 ≠ 0b001#3 ∧
      (0x8000000000000000000000000000000000#136).extractLsb' 133 3 ≠ 0b010#3 ∧
      (0x8000000000000000000000000000000000#136).extractLsb' 133 3 ≠ 0b011#3) := by decide

theorem witness_IgnoredBitsHaveNoEffect :
    (opField 0x2000000000000000000000000000000001#136 = 0b001#3 ∧
      opField 0x3FFFFFFFFFFFFFFFFFFFFFFFFF00000001#136 = 0b001#3 ∧
      (0x2000000000000000000000000000000001#136).extractLsb' 0 32 =
        (0x3FFFFFFFFFFFFFFFFFFFFFFFFF00000001#136).extractLsb' 0 32) ∧
    (opField 0x4100000000000000000000000000000061#136 = 0b010#3 ∧
      opField 0x41FFFFFFFFFFFFFFFFFFFFFFFFFFFFFF61#136 = 0b010#3 ∧
      lenField 0x4100000000000000000000000000000061#136 = lenField 0x41FFFFFFFFFFFFFFFFFFFFFFFFFFFFFF61#136 ∧
      (lenField 0x4100000000000000000000000000000061#136).toNat ≤ 16 ∧
      ∀ k < (lenField 0x4100000000000000000000000000000061#136).toNat,
        (0x4100000000000000000000000000000061#136).extractLsb' (8 * k) 8 =
          (0x41FFFFFFFFFFFFFFFFFFFFFFFFFFFFFF61#136).extractLsb' (8 * k) 8) ∧
    (opField 0x6000000000000000000000000000000000#136 = 0b011#3 ∧
      opField 0x7FFFFFFFFFFFFFFFFFFFFFFFFFFFFFFFFF#136 = 0b011#3) := by decide

theorem witness_DecodeOfEncodeIsTheCommand :
    (Instr.init 0xFFFFFFFF#32).WellFormed ∧ (Instr.absorb []).WellFormed ∧
    (Instr.absorb (ramp 240 16)).WellFormed ∧ Instr.finalize.WellFormed := by decide

theorem witness_CanonicalWordsHaveIgnoredBitsZero :
    (ramp 0 15).length ≤ 16 ∧ (ramp 0 15).length ≤ 15 ∧ 15 < 16 ∧ ([] : List Byte).length ≤ 0 := by decide

theorem witness_ChunkBytesAreTheDataLanes :
    (16 ≤ 16 ∧ 15 < 16 ∧ 0 ≤ 16) ∧
    (∀ k < 1, (0x61#128).extractLsb' (8 * k) 8 = (0xFF61#128).extractLsb' (8 * k) 8) ∧ 3 < 4 := by decide

/-! ### Witnesses: one step -/

theorem witness_StepRunsTheDecodedCommand :
    (fresh [.command 0x3FFFFFFFFFFFFFFFFFFFFFFFFF00000001#136]).inputs =
      .command 0x3FFFFFFFFFFFFFFFFFFFFFFFFF00000001#136 :: [] ∧
    decode 0x3FFFFFFFFFFFFFFFFFFFFFFFFF00000001#136 = .ok (.init 1) ∧
    (Instr.absorb (ramp 0 16)).WellFormed ∧
    (fresh [.command (encode (.absorb (ramp 0 16)))]).inputs = .command (encode (.absorb (ramp 0 16))) :: [] ∧
    decodeTableWord 136 0x4000000000000000000000000000000000 = some (.absorb []) :=
  ⟨rfl, by decide, by decide, rfl, by decide⟩

theorem witness_IllegalWordsAnswerErrIllegal :
    (fresh [.command 0x5F00000000000000000000000000000000#136]).inputs =
      .command 0x5F00000000000000000000000000000000#136 :: [] ∧
    decode 0x5F00000000000000000000000000000000#136 = .error (.chunkTooLong 31#5) := ⟨rfl, by decide⟩

theorem witness_UninitialisedCommandsAnswerErrUninit : State.reset.hasher.inited = false := rfl

theorem witness_IdleStepChangesNothing : State.reset.inputs = [] := rfl

theorem witness_HardwareResetEntersUninit :
    (machine (long (ramp 16 5)) [.hardwareReset]).inputs = .hardwareReset :: [] := rfl

theorem witness_OneResponsePerCommand :
    (∃ t, step State.reset = .next t) ∧ State.reset.inputs = [] ∧
    (∃ t, step (fresh [.hardwareReset]) = .next t) ∧ (fresh [.hardwareReset]).inputs = .hardwareReset :: [] ∧
    (∃ t, step (fresh [.command 0#136]) = .next t) ∧ (fresh [.command 0#136]).inputs = .command 0#136 :: [] :=
  ⟨⟨_, rfl⟩, rfl, ⟨_, rfl⟩, rfl, ⟨_, rfl⟩, rfl⟩

/-- One word for each line of the table of response codes, and the step each takes. -/
theorem witness_ResponseCodesFollowTheTable :
    ((∃ t, step (fresh [.command 0x2000000000000000000000000000000001#136]) = .next t) ∧
      decode 0x2000000000000000000000000000000001#136 = .ok (.init 1)) ∧
    ((∃ t, step (machine (short []) [.command 0x4100000000000000000000000000000061#136]) = .next t) ∧
      decode 0x4100000000000000000000000000000061#136 = .ok (.absorb [0x61#8]) ∧ (short []).inited = true) ∧
    ((∃ t, step (machine (short []) [.command 0x6000000000000000000000000000000000#136]) = .next t) ∧
      decode 0x6000000000000000000000000000000000#136 = .ok .finalize ∧ (short []).inited = true) ∧
    ((∃ t, step (fresh [.command 0x5100000000000000000000000000000061#136]) = .next t) ∧
      decode 0x5100000000000000000000000000000061#136 = .error (.chunkTooLong 17#5)) ∧
    ((∃ t, step (fresh [.command 0x4000000000000000000000000000000000#136]) = .next t) ∧
      decode 0x4000000000000000000000000000000000#136 = .ok (.absorb []) ∧
      (∀ seed, Instr.absorb [] ≠ .init seed) ∧ (fresh []).hasher.inited = false) :=
  ⟨⟨⟨_, rfl⟩, by decide⟩, ⟨⟨_, rfl⟩, by decide, rfl⟩, ⟨⟨_, rfl⟩, by decide, rfl⟩, ⟨⟨_, rfl⟩, by decide⟩,
    ⟨⟨_, rfl⟩, by decide, by simp, rfl⟩⟩

/-! ### Witnesses: ABSORB, the mixer, FINALIZE -/

theorem witness_EmptyChunkIsNoOperation :
    (machine (short (ramp 0 3)) []).hasher.inited = true ∧ State.reset.hasher.inited = false := ⟨rfl, rfl⟩

theorem witness_InitBuildsTheSeedState :
    (machine (long (ramp 16 5)) []).hasher.inited = true ∧
    ∃ t, exec .finalize (machine (long (ramp 16 5)) []) = .next t := ⟨rfl, ⟨_, rfl⟩⟩

theorem witness_AbsorbPastTheCounterIsRefused :
    (machine full []).hasher.inited = true ∧ 2 ^ 64 ≤ (machine full []).hasher.totalLength.toNat + [0x00#8].length := by
  decide

/-- Each case of the beat at both ends of its range: `c` carried bytes and a chunk of `n`. -/
theorem witness_AbsorbBeatCases :
    ∀ p ∈ [(0, 0), (15, 0), (0, 1), (0, 15), (14, 1), (1, 15), (15, 1), (1, 16), (15, 16), (0, 16)],
      (machine (short (ramp 0 p.1)) []).Inv ∧ (machine (short (ramp 0 p.1)) []).hasher.inited = true ∧
      (ramp p.1 p.2).length ≤ 16 ∧
      (machine (short (ramp 0 p.1)) []).hasher.totalLength.toNat + (ramp p.1 p.2).length < 2 ^ 64 := by decide

theorem witness_AbsorbClosedForm :
    (long (ramp 16 5)).wf ∧ (long (ramp 16 5)).inited = true ∧
    (long (ramp 16 5)).totalLength.toNat + (ramp 21 40).length < 2 ^ 64 := by decide

theorem witness_StreamingEquivalence :
    (long (ramp 16 5)).wf ∧ (long (ramp 16 5)).inited = true ∧
    (long (ramp 16 5)).totalLength.toNat + (ramp 21 11).length + (ramp 32 17).length < 2 ^ 64 := by decide

/-- A chunk that is only buffered, up to 15 bytes, and one that completes a block exactly and beyond. -/
theorem witness_AbsorbStoresAtTheFillIndex :
    (machine (short (ramp 0 14)) []).Inv ∧ (machine (short (ramp 0 14)) []).hasher.inited = true ∧
    (∃ t, exec (.absorb (ramp 14 1)) (machine (short (ramp 0 14)) []) = .next t) ∧
    (machine (short (ramp 0 14)) []).hasher.carryLen.toNat + (ramp 14 1).length < 16 ∧
    (∃ t, exec (.absorb (ramp 14 2)) (machine (short (ramp 0 14)) []) = .next t) ∧
    16 ≤ (machine (short (ramp 0 14)) []).hasher.carryLen.toNat + (ramp 14 2).length ∧
    (∃ t, exec (.absorb (ramp 14 16)) (machine (short (ramp 0 14)) []) = .next t) ∧
    16 ≤ (machine (short (ramp 0 14)) []).hasher.carryLen.toNat + (ramp 14 16).length :=
  ⟨by decide, rfl, ⟨_, rfl⟩, by decide, ⟨_, rfl⟩, by decide, ⟨_, rfl⟩, by decide⟩

theorem witness_RoundFormulaAndBijections : (1#32 : Word) ≠ 0 := by decide

theorem witness_BlockMixPairsWordsWithLanes :
    lanes16.lane1 ≠ 0 ∧ lanes16.lane2 ≠ 0 ∧ lanes16.lane3 ≠ 0 ∧ lanes16.lane4 ≠ 0 := by decide

theorem witness_BlockByteReachesItsLaneOnly :
    ∀ k ∈ [0, 3, 4, 7, 8, 11, 12, 15], (ramp 0 16).length = 16 ∧ k < 16 ∧ (ramp 0 16)[k]? ≠ some 0xFF#8 := by decide

theorem witness_FinalizeDigestAsOneExpression :
    ∀ h ∈ [short [], short (ramp 0 15), long [], long (ramp 16 15)],
      (machine h []).Inv ∧ (machine h []).hasher.inited = true := by decide

theorem witness_FinalizeReinitialisesUnderItsSeed :
    (machine (long (ramp 16 5)) []).hasher.inited = true ∧
    ∃ t, exec .finalize (machine (long (ramp 16 5)) []) = .next t := ⟨rfl, ⟨_, rfl⟩⟩

theorem witness_SecondFinalizeAnswersTheEmptyDigest :
    (machine (long (ramp 16 5)) []).Inv ∧ (machine (long (ramp 16 5)) []).hasher.inited = true := by decide

theorem witness_StartValueAndLengthFold :
    16 ≤ (long []).totalLength.toNat ∧ (short (ramp 0 15)).totalLength.toNat < 16 ∧
    (hasher0 lanes16 (2 ^ 32 + 5) (ramp 16 5)).totalLength.toNat = 2 ^ 32 + 5 := by decide

theorem witness_AvalancheFormulaAndBijection :
    (0x16564B1D#32 : Word) = 0x165667B1#32 ^^^ (0x165667B1#32 >>> 15) ∧
    (0x7E00CC7B#32 : Word) = 0x16564B1D#32 * 0x85EBCA77#32 ∧
    (0x7E033C7D#32 : Word) = 0x7E00CC7B#32 ^^^ (0x7E00CC7B#32 >>> 13) ∧
    (0x02CC5FC9#32 : Word) = 0x7E033C7D#32 * 0xC2B2AE3D#32 := by decide

theorem witness_ArithmeticIsModuloTwoToThe32 :
    31 < 32 ∧ (1 ≤ 1 ∧ 1 ≤ 31 ∧ (1#32 : Word).toNat < 2 ^ 1) ∧
    (1 ≤ 31 ∧ 31 ≤ 31 ∧ (0x7FFFFFFF#32 : Word).toNat < 2 ^ 31) := by decide

theorem witness_WordsAreARingAndOddFactorsInvertible :
    Config.prime1.toNat % 2 = 1 ∧ Config.prime5 ∈ [Config.prime1, Config.prime2, Config.prime3, Config.prime4,
      Config.prime5] := by decide

theorem witness_RotateLeftLosesNoBit : (1 ≤ 1 ∧ 1 ≤ 31) ∧ (1 ≤ 31 ∧ 31 ≤ 31) ∧ 0 < 32 ∧ 31 < 32 := by decide

/-! ### Witnesses: the whole machine -/

/-- An illegal word, INIT, ABSORB, FINALIZE, a hardware reset and no event, each from a state that meets the
invariant, each with the step it takes. -/
theorem witness_StepKeepsTheInvariant :
    ∀ e ∈ [[], [.hardwareReset], [.command 0#136], [.command 0x2000000000000000000000000000000001#136],
        [.command 0x500F0E0D0C0B0A09080706050403020100#136], [.command 0x6000000000000000000000000000000000#136]],
      (machine (long (ramp 16 5)) e).Inv ∧ ∃ t, step (machine (long (ramp 16 5)) e) = .next t := by
  simp only [List.forall_mem_cons, List.not_mem_nil, false_implies, implies_true, and_true]
  exact ⟨⟨by decide, _, rfl⟩, ⟨by decide, _, rfl⟩, ⟨by decide, _, rfl⟩, ⟨by decide, _, rfl⟩, ⟨by decide, _, rfl⟩,
    ⟨by decide, _, rfl⟩⟩

theorem witness_EveryCommandIsAnswered :
    (machine full [.command 0x4100000000000000000000000000000061#136]).Inv ∧ State.reset.Inv :=
  ⟨by decide, ⟨by simp [State.reset, Hasher.afterReset, Memory.wf], fun h => by cases h⟩⟩

theorem witness_OnceInitialisedNoCommandErrs :
    (machine full [.command 0x4000000000000000000000000000000000#136]).Inv ∧
    (machine full [.command 0x4000000000000000000000000000000000#136]).hasher.inited = true ∧
    (machine full [.command 0x4000000000000000000000000000000000#136]).inputs =
      .command 0x4000000000000000000000000000000000#136 :: [] ∧
    decode 0x4000000000000000000000000000000000#136 = .ok (.absorb []) ∧
    ∀ b, Instr.absorb [] = .absorb b → full.totalLength.toNat + b.length < 2 ^ 64 :=
  ⟨by decide, rfl, rfl, by decide, fun b h => by cases h; decide⟩

/-- One state and word for each arrow between the phases, at the lengths where the arrows meet: 0, 15, 16. -/
theorem witness_PhaseTransitions :
    (phase State.reset.hasher = .uninit ∧ State.reset.Inv ∧
      (∃ t, step (fresh [.command (encode .finalize)]) = .next t) ∧
      decode (encode .finalize) = .ok .finalize ∧ ∀ seed, Instr.finalize ≠ .init seed) ∧
    (phase (short []) = .empty ∧ (machine (short []) []).Inv ∧ decode (encode (.absorb [])) = .ok (.absorb []) ∧
      ∃ t, step (machine (short []) [.command (encode (.absorb []))]) = .next t) ∧
    (decode (encode (.absorb (ramp 0 15))) = .ok (.absorb (ramp 0 15)) ∧
      (short []).totalLength.toNat + (ramp 0 15).length ≤ 15 ∧ ramp 0 15 ≠ [] ∧
      ∃ t, step (machine (short []) [.command (encode (.absorb (ramp 0 15)))]) = .next t) ∧
    (phase (short (ramp 0 15)) = .short ∧ (machine (short (ramp 0 15)) []).Inv ∧
      (short (ramp 0 15)).totalLength.toNat + ([] : List Byte).length ≤ 15 ∧
      ∃ t, step (machine (short (ramp 0 15)) [.command (encode (.absorb []))]) = .next t) ∧
    (decode (encode (.absorb (ramp 15 1))) = .ok (.absorb (ramp 15 1)) ∧
      16 ≤ (short (ramp 0 15)).totalLength.toNat + (ramp 15 1).length ∧
      ∃ t, step (machine (short (ramp 0 15)) [.command (encode (.absorb (ramp 15 1)))]) = .next t) ∧
    (phase (long []) = .long ∧ (machine (long []) []).Inv ∧
      (∃ t, step (machine (long []) [.command (encode (.absorb []))]) = .next t) ∧
      phase (long []) ≠ .uninit ∧ ∃ t, step (machine (long []) [.command (encode .finalize)]) = .next t) :=
  ⟨⟨rfl, ⟨by simp [State.reset, Hasher.afterReset, Memory.wf], fun h => by cases h⟩, ⟨_, rfl⟩, by decide, by simp⟩,
    ⟨by decide, by decide, by decide, _, rfl⟩, ⟨by decide, by decide, by decide, _, rfl⟩,
    ⟨by decide, by decide, by decide, _, rfl⟩, ⟨by decide, by decide, _, rfl⟩,
    ⟨by decide, by decide, ⟨_, rfl⟩, by decide, _, rfl⟩⟩

/-- For the statements on who writes `seed` and `inited`: an INIT, a FINALIZE (neither INIT nor reset), a hardware
reset, and a command the uninitialised core refuses. -/
theorem witness_OnlyInitWritesTheSeed :
    ((∃ t, step (machine (long []) [.command (encode (.init 7))]) = .next t) ∧
      decode (encode (.init 7)) = .ok (.init 7)) ∧
    ((∃ t, step (machine (long []) [.command (encode .finalize)]) = .next t) ∧
      (∀ rest, (machine (long []) [.command (encode .finalize)]).inputs ≠ .hardwareReset :: rest) ∧
      ∀ w rest seed, (machine (long []) [.command (encode .finalize)]).inputs = .command w :: rest →
        decode w ≠ .ok (.init seed)) := by
  refine ⟨⟨⟨_, rfl⟩, by decide⟩, ⟨_, rfl⟩, by simp [machine], fun w rest seed h hd => ?_⟩
  simp only [machine, List.cons.injEq, HostEvent.command.injEq] at h
  rw [← h.1, show decode (encode .finalize) = .ok .finalize by decide] at hd
  cases hd

theorem witness_OnlyHardwareResetClearsInited :
    (∃ t, step (machine (long []) [.hardwareReset]) = .next t) ∧
    ((∃ t, step (fresh [.command (encode (.init 7))]) = .next t) ∧ decode (encode (.init 7)) = .ok (.init 7)) ∧
    ((∃ t, step (fresh [.command (encode (.absorb (ramp 0 16)))]) = .next t) ∧
      decode (encode (.absorb (ramp 0 16))) = .ok (.absorb (ramp 0 16)) ∧
      (∀ seed, Instr.absorb (ramp 0 16) ≠ .init seed) ∧ (fresh []).hasher.inited = false) :=
  ⟨⟨_, rfl⟩, ⟨⟨_, rfl⟩, by decide⟩, ⟨_, rfl⟩, by decide, by simp, rfl⟩

/-- A full beat on an empty carry changes the lanes. -/
theorem witness_LanesChangeOnlyWhenTheRulesSay :
    (machine (short []) [.command (encode (.absorb (ramp 0 16)))]).Inv ∧
    ∃ t, step (machine (short []) [.command (encode (.absorb (ramp 0 16)))]) = .next t ∧
      t.hasher.lanes ≠ (short []).lanes :=
  ⟨by decide, _, rfl, by decide⟩

/-- A refused command, an INIT, an answered FINALIZE, and ABSORBs that fill the carry to 15 bytes and to 16. -/
theorem witness_CommandsWriteOnlyWhatTheirRulesName :
    ((∃ t, exec .finalize State.reset = .next t) ∧ (∀ seed, Instr.finalize ≠ .init seed) ∧
      State.reset.hasher.inited = false) ∧
    (∃ t, exec (.init 7) State.reset = .next t) ∧
    ((∃ t, exec .finalize (machine (long (ramp 16 5)) []) = .next t) ∧ (long (ramp 16 5)).inited = true) ∧
    ((machine (short (ramp 0 14)) []).Inv ∧ (short (ramp 0 14)).inited = true) ∧
    ((∃ t, exec (.absorb (ramp 14 1)) (machine (short (ramp 0 14)) []) = .next t) ∧
      (short (ramp 0 14)).carryLen.toNat + (ramp 14 1).length < 16) ∧
    ((∃ t, exec (.absorb (ramp 14 2)) (machine (short (ramp 0 14)) []) = .next t) ∧
      16 ≤ (short (ramp 0 14)).carryLen.toNat + (ramp 14 2).length) :=
  ⟨⟨⟨_, rfl⟩, by simp, rfl⟩, ⟨_, rfl⟩, ⟨⟨_, rfl⟩, rfl⟩, ⟨by decide, rfl⟩, ⟨⟨_, rfl⟩, by decide⟩, ⟨_, rfl⟩, by decide⟩

/-! ### Witnesses: runs -/

theorem witness_AbsorbExtendsTheStream : (ramp 0 21).length + (ramp 21 16).length < 2 ^ 64 := by decide

theorem witness_StreamDigestIsXxh32 : (ramp 0 21).length < 2 ^ 64 := by decide

/-- The core after ramp(21) under seed 0, and the step each event takes there: none, a hardware reset, an illegal
word, an ABSORB, an INIT, a FINALIZE. -/
theorem witness_StepTracksTheStream :
    (ramp 0 21).length < 2 ^ 64 ∧ (machine (long (ramp 16 5)) []).hasher = streamState 0 (ramp 0 21) ∧
    (∃ t, step (machine (long (ramp 16 5)) []) = .next t) ∧
    (∃ t, step (machine (long (ramp 16 5)) [.hardwareReset]) = .next t) ∧
    ((∃ t, step (machine (long (ramp 16 5)) [.command 0x5100000000000000000000000000000061#136]) = .next t) ∧
      decode 0x5100000000000000000000000000000061#136 = .error (.chunkTooLong 17#5)) ∧
    ((∃ t, step (machine (long (ramp 16 5)) [.command (encode (.absorb (ramp 21 16)))]) = .next t) ∧
      decode (encode (.absorb (ramp 21 16))) = .ok (.absorb (ramp 21 16))) ∧
    ((∃ t, step (machine (long (ramp 16 5)) [.command (encode (.init 7))]) = .next t) ∧
      decode (encode (.init 7)) = .ok (.init 7)) ∧
    ((∃ t, step (machine (long (ramp 16 5)) [.command (encode .finalize)]) = .next t) ∧
      decode (encode .finalize) = .ok .finalize) :=
  ⟨by decide, by decide, ⟨_, rfl⟩, ⟨_, rfl⟩, ⟨⟨_, rfl⟩, by decide⟩, ⟨⟨_, rfl⟩, by decide⟩, ⟨⟨_, rfl⟩, by decide⟩,
    ⟨_, rfl⟩, by decide⟩

theorem witness_GreedySplitMakesUpTheBytes :
    (ramp 32 3) ∈ beats (ramp 0 35) ∧ 16 * (1 + 1) ≤ (ramp 0 35).length := by decide

/-- The splits 5 + 0 + 16 and 16 + 5 of the same 21 bytes (programs P3 and P3b, with an empty beat between). -/
theorem witness_AnySplitLeavesTheSameState :
    (machine (short []) (present ([ramp 0 5, [], ramp 5 16].map .absorb))).Inv ∧
    (short []).inited = true ∧ (∀ c ∈ [ramp 0 5, [], ramp 5 16], c.length ≤ 16) ∧
    (∀ c ∈ [ramp 0 16, ramp 16 5], c.length ≤ 16) ∧
    [ramp 0 16, ramp 16 5].flatten = [ramp 0 5, [], ramp 5 16].flatten ∧
    (short []).totalLength.toNat + [ramp 0 5, [], ramp 5 16].flatten.length < 2 ^ 64 ∧
    (machine (short []) (present ([ramp 0 5, [], ramp 5 16].map .absorb))).inputs =
      present ([ramp 0 5, [], ramp 5 16].map .absorb) ++ [] ∧
    (machine (short []) (present ([ramp 0 16, ramp 16 5].map .absorb))).inputs =
      present ([ramp 0 16, ramp 16 5].map .absorb) ++ [] :=
  ⟨by decide, rfl, by decide, by decide, by decide, by decide, by simp [machine], by simp [machine]⟩

/-- A seed of 2^32 + 1 and 35 bytes, from the uninitialised core. -/
theorem witness_HashProgramAnswersXxh32 :
    (ramp 0 35).length < 2 ^ 64 ∧
    (fresh (present (expand (.hash 4294967297 (ramp 0 35))))).inputs =
      present (expand (.hash 4294967297 (ramp 0 35))) ++ [] := ⟨by decide, by simp [fresh]⟩

/-- Pieces of 1, 3, 16 and 17 bytes, and none. -/
theorem witness_AnyChunkingGivesTheSameDigest :
    [ramp 0 1, ramp 1 3, [], ramp 4 16, ramp 20 17].flatten.length < 2 ^ 64 ∧
    (fresh (present (.init 9 :: ([ramp 0 1, ramp 1 3, [], ramp 4 16, ramp 20 17].flatMap
      (fun p => expand (.absorbN p)) ++ [.finalize])))).inputs =
      present (.init 9 :: ([ramp 0 1, ramp 1 3, [], ramp 4 16, ramp 20 17].flatMap
        (fun p => expand (.absorbN p)) ++ [.finalize])) ++ [] := ⟨by decide, by simp [fresh]⟩

theorem witness_ReuseAfterFinalize :
    (machine (long (ramp 16 5)) (present (.finalize :: ([ramp 0 1, []].map .absorb ++ [.finalize])))).Inv ∧
    (long (ramp 16 5)).inited = true ∧ (∀ c ∈ [ramp 0 1, []], c.length ≤ 16) ∧
    [ramp 0 1, []].flatten.length < 2 ^ 64 ∧
    (machine (long (ramp 16 5)) (present (.finalize :: ([ramp 0 1, []].map .absorb ++ [.finalize])))).inputs =
      present (.finalize :: ([ramp 0 1, []].map .absorb ++ [.finalize])) ++ [] :=
  ⟨by decide, rfl, by decide, by decide, by simp [machine]⟩

/-- Two uninitialised machines that hold different seeds and lanes. -/
theorem witness_UnspecifiedValuesReachNoResponse :
    SameOutside (machine { short [] with inited := false } [.command (encode .finalize)])
      (machine { long (ramp 16 5) with inited := false } [.command (encode .finalize)]) ∧
    ({ short [] with inited := false } : Hasher) ≠ { long (ramp 16 5) with inited := false } := by decide

end Sys2Proof.Tests
end

section
/-! PROOF. The flag `inited` (10_state.md R28): who sets it, who clears it, and what its 0 forbids. -/

namespace Sys2Proof.Machine

/-! ### The commands -/

theorem exec_init (seed : Word) (s : State) :
    exec (.init seed) s = .next (respond { s with hasher := initState seed } .ok 0) := by rfl

/-- R223: both commands but INIT make the check of `inited` first. -/
theorem exec_uninited {i : Instr} {s : State} (hne : ∀ seed, i ≠ .init seed) (hi : s.hasher.inited = false) :
    exec i s = .next (raiseError s .errUninit) := by
  cases i with
  | init seed => exact absurd rfl (hne seed)
  | absorb b => exact whenInited_false hi _
  | finalize => exact whenInited_false hi _

/-- ABSORB and FINALIZE write neither `inited` nor `seed` (R140, R170): FINALIZE leaves `InitState` of the seed
it found, and it gets there only when `inited` was 1 already. -/
theorem exec_keeps_inited_seed {i : Instr} {s t : State} (hne : ∀ seed, i ≠ .init seed)
    (h : exec i s = .next t) : t.hasher.inited = s.hasher.inited ∧ t.hasher.seed = s.hasher.seed := by
  cases i with
  | init seed => exact absurd rfl (hne seed)
  | absorb b =>
    rcases execAbsorb_next h with ⟨-, rfl⟩ | ⟨-, -, k, hk, rfl⟩
    · exact ⟨rfl, rfl⟩
    · obtain ⟨hinited, hseed, -⟩ := absorb_ok_frame hk
      exact ⟨hinited, hseed⟩
  | finalize =>
    rcases execFinalize_next h with ⟨-, rfl⟩ | ⟨hi, d, -, rfl⟩
    · exact ⟨rfl, rfl⟩
    · simp [hi]

/-! ### The step -/

/-- The step that takes an INIT leaves `InitState` of its operand (R130). -/
theorem step_init_hasher {s t : State} {w : CommandWord} {rest : List HostEvent} {seed : Word}
    (h : step s = .next t) (hin : s.inputs = .command w :: rest) (hd : decode w = .ok (.init seed)) :
    t.hasher = initState seed := by
  rw [step_command hin hd, exec_init, Host.Outcome.next.injEq] at h
  rw [← h, respond_hasher]

/-- The step that takes ABSORB or FINALIZE while `inited` is 0 is the refusal (R28, R223). -/
theorem step_uninited {s : State} {w : CommandWord} {rest : List HostEvent} {i : Instr}
    (hin : s.inputs = .command w :: rest) (hd : decode w = .ok i) (hne : ∀ seed, i ≠ .init seed)
    (hi : s.hasher.inited = false) : step s = .next (raiseError { s with inputs := rest } .errUninit) := by
  rw [step_command hin hd]
  exact exec_uninited hne hi

/-- A step that takes neither a hardware reset nor an INIT writes neither `inited` nor `seed` (R23, R28). -/
theorem step_keeps_inited_seed {s t : State} (h : step s = .next t)
    (hreset : ∀ rest, s.inputs ≠ .hardwareReset :: rest)
    (hinit : ∀ w rest seed, s.inputs = .command w :: rest → decode w ≠ .ok (.init seed)) :
    t.hasher.inited = s.hasher.inited ∧ t.hasher.seed = s.hasher.seed := by
  rcases step_next_cases h with ⟨-, rfl⟩ | ⟨rest, hin, -⟩ | ⟨w, rest, e, -, -, rfl⟩ | ⟨w, rest, i, hin, hd, hx⟩
  · exact ⟨rfl, rfl⟩
  · exact absurd hin (hreset rest)
  · exact ⟨rfl, rfl⟩
  · have hne : ∀ seed, i ≠ .init seed := by
      rintro seed rfl
      exact hinit w rest seed hin hd
    obtain ⟨hinited, hseed⟩ := exec_keeps_inited_seed hne hx
    exact ⟨hinited, hseed⟩

/-- Settles O44: each event by the lemma that says what its step does to `inited`. -/
theorem onlyHardwareResetClearsInited : Obligations.OnlyHardwareResetClearsInited := by
  refine ⟨afterReset_inited 0, fun s t h => ⟨fun rest hin => ?_, fun w rest seed hin hd => ?_,
    fun hreset hinit => (step_keeps_inited_seed h hreset hinit).1, fun w rest i hin hd hne hi => ?_⟩⟩
  · rw [step_hardwareReset hin, Host.Outcome.next.injEq] at h
    rw [← h, hardwareReset_hasher, afterReset_inited]
  · rw [step_init_hasher h hin hd, initState_inited]
  · rw [step_uninited hin hd hne hi, Host.Outcome.next.injEq] at h
    exact h.symm

end Sys2Proof.Machine
end

section
/-! PROOF. The decoder (30_encoding.md R82 to R89): what it answers for each operation code, in the bits of the
whole word, and which bits the answer depends on. -/

namespace Sys2Proof

/-! ### The operands, in the bits of the whole word -/

/-- DATA is the low end of the word (R82), so a seed operand is the word's own low 32 bits (R85). -/
theorem seedOperand_dataField (w : CommandWord) : seedOperand (dataField w) = w.extractLsb' 0 32 :=
  BitVec.extractLsb'_extractLsb'_of_le (by decide)

theorem dataLane_dataField (w : CommandWord) {k : Nat} (hk : k < 16) :
    dataLane (dataField w) k = w.extractLsb' (8 * k) 8 :=
  BitVec.extractLsb'_extractLsb'_of_le (by omega)

/-- R83: the bytes of a chunk are the word's own low bytes, lane 0 first. -/
theorem chunkOperand_dataField (w : CommandWord) {n : Nat} (hn : n ≤ 16) :
    chunkOperand (dataField w) n = (List.range n).map (fun k => w.extractLsb' (8 * k) 8) :=
  List.map_congr_left fun k hk => dataLane_dataField w (by have := List.mem_range.1 hk; omega)

/-! ### The answer for each operation code (R86, R87, R89) -/

theorem decode_init {w : CommandWord} (hop : opField w = opInit) :
    decode w = .ok (.init (w.extractLsb' 0 32)) := by
  rw [decode, if_pos hop, seedOperand_dataField]

/-- Of the four branches of `decode` an `OP` of 010 reaches the second, which looks at `LEN`. -/
theorem decode_opAbsorb {w : CommandWord} (hop : opField w = opAbsorb) :
    decode w = if (lenField w).toNat ≤ 16
      then .ok (.absorb (chunkOperand (dataField w) (lenField w).toNat))
      else .error (.chunkTooLong (lenField w)) := by
  rw [decode, if_neg (by rw [hop]; decide)]
  exact if_pos hop

theorem decode_absorb {w : CommandWord} (hop : opField w = opAbsorb) (hlen : (lenField w).toNat ≤ 16) :
    decode w = .ok (.absorb ((List.range (lenField w).toNat).map (fun k => w.extractLsb' (8 * k) 8))) := by
  rw [decode_opAbsorb hop, if_pos hlen, chunkOperand_dataField w hlen]

theorem decode_chunkTooLong {w : CommandWord} (hop : opField w = opAbsorb) (hlen : 16 < (lenField w).toNat) :
    decode w = .error (.chunkTooLong (lenField w)) := by
  rw [decode_opAbsorb hop, if_neg (Nat.not_le.2 hlen)]

theorem decode_finalize {w : CommandWord} (hop : opField w = opFinalize) : decode w = .ok .finalize := by
  rw [decode, if_neg (by rw [hop]; decide), if_neg (by rw [hop]; decide), if_pos hop]

theorem decode_reservedOp {w : CommandWord} (hinit : opField w ≠ opInit) (habsorb : opField w ≠ opAbsorb)
    (hfinalize : opField w ≠ opFinalize) : decode w = .error (.reservedOp (opField w)) := by
  rw [decode, if_neg hinit, if_neg habsorb, if_neg hfinalize]

/-- Settles O1: the operation codes one by one, and `LEN` for the code of ABSORB. -/
theorem decodeReadsTheFields : Obligations.DecodeReadsTheFields := fun _ =>
  ⟨decode_init, decode_absorb, decode_finalize, fun hop hlen => ⟨_, decode_chunkTooLong hop hlen⟩,
    fun hinit habsorb hfinalize => ⟨_, decode_reservedOp hinit habsorb hfinalize⟩⟩

/-! ### Words that agree on the bits their command uses (R88) -/

/-- Two words that decode to the one legal command `i` have the same, legal, reading. -/
theorem decode_agree {w w' : CommandWord} {i : Instr} (h : decode w = .ok i) (h' : decode w' = .ok i) :
    decode w = decode w' ∧ ∃ j, decode w = .ok j :=
  ⟨h.trans h'.symm, i, h⟩

/-- An ABSORB word is read in its `LEN` and the lanes below `LEN` only. -/
theorem decode_absorb_of_same_lanes {w w' : CommandWord} (hop' : opField w' = opAbsorb)
    (hlen : lenField w = lenField w') (hle : (lenField w).toNat ≤ 16)
    (hlanes : ∀ k < (lenField w).toNat, w.extractLsb' (8 * k) 8 = w'.extractLsb' (8 * k) 8) :
    decode w' = .ok (.absorb ((List.range (lenField w).toNat).map (fun k => w.extractLsb' (8 * k) 8))) := by
  rw [decode_absorb hop' (hlen ▸ hle), ← hlen]
  have hchunk : (List.range (lenField w).toNat).map (fun k => w'.extractLsb' (8 * k) 8) =
      (List.range (lenField w).toNat).map (fun k => w.extractLsb' (8 * k) 8) :=
    List.map_congr_left fun k hk => (hlanes k (List.mem_range.1 hk)).symm
  rw [hchunk]

/-- Settles O3: in each clause both words decode to one command, which names only the bits they share. -/
theorem ignoredBitsHaveNoEffect : Obligations.IgnoredBitsHaveNoEffect := by
  refine fun w w' => ⟨fun hop hop' hseed => ?_, fun hop hop' hlen hle hlanes => ?_, fun hop hop' => ?_⟩
  · exact decode_agree (decode_init hop) (hseed ▸ decode_init hop')
  · exact decode_agree (decode_absorb hop hle) (decode_absorb_of_same_lanes hop' hlen hle hlanes)
  · exact decode_agree (decode_finalize hop) (decode_finalize hop')

end Sys2Proof
end

section
/-! PROOF. The arithmetic facility (40_arith32.md R110 to R117): each operation as a number or in bits, then its
corner cases. -/

namespace Sys2Proof.Machine

/-! ### Rotation (R113) -/

/-- A rotation by 1 to 31 puts into bit `j` the bit `r` places below, counted round the word. -/
theorem rotl32_getLsbD (x : Word) {r j : Nat} (hr : r ≤ 31) (hj : j < 32) :
    (rotl32 x r).getLsbD j = if j < r then x.getLsbD (32 - r + j) else x.getLsbD (j - r) := by
  rw [rotl32_eq, BitVec.getLsbD_rotateLeft, Nat.mod_eq_of_lt (Nat.lt_succ_of_le hr), decide_eq_true hj,
    Bool.true_and]
  by_cases h : j < r <;> simp [h]

theorem rotl32_getLsbD_add_mod (x : Word) {r i : Nat} (hr : r ≤ 31) (hi : i < 32) :
    (rotl32 x r).getLsbD ((i + r) % 32) = x.getLsbD i := by
  rw [rotl32_getLsbD x hr (Nat.mod_lt _ (by decide))]
  rcases Nat.lt_or_ge (i + r) 32 with h | h
  · rw [Nat.mod_eq_of_lt h, if_neg (by omega), Nat.add_sub_cancel]
  · have hwrap : (i + r) % 32 = i + r - 32 := by omega
    rw [hwrap, if_pos (by omega)]
    congr 1
    omega

theorem rotl32_mod (x : Word) (r : Nat) : rotl32 x r = rotl32 x (r % 32) :=
  (BitVec.rotateLeft_mod_eq_rotateLeft).symm

theorem rotl32_zero {r : Nat} (hr : r ≤ 31) : rotl32 0 r = 0 := by
  refine BitVec.eq_of_getLsbD_eq fun j hj => ?_
  rw [rotl32_getLsbD 0 hr hj]
  simp

theorem rotl32_allOnes {r : Nat} (hr : r ≤ 31) : rotl32 (BitVec.allOnes 32) r = BitVec.allOnes 32 := by
  refine BitVec.eq_of_getLsbD_eq fun j hj => ?_
  simp only [rotl32_getLsbD _ hr hj, BitVec.getLsbD_allOnes]
  split <;> exact decide_eq_decide.2 (by omega)

/-- Settles O36: the number is `rotl32_toNat`; bit `i` stays below bit 32 or wraps round to the bottom. -/
theorem rotateLeftLosesNoBit : Obligations.RotateLeftLosesNoBit :=
  ⟨fun x _ h1 h31 => ⟨rotl32_toNat x h1 h31, fun _ hi => rotl32_getLsbD_add_mod x h31 hi, rotl32_zero h31,
    rotl32_allOnes h31⟩, rotl32_mod, by decide⟩

/-! ### Sum, difference and product (R110 to R112) -/

theorem add32_toNat (a b : Word) : (add32 a b).toNat = (a.toNat + b.toNat) % 2 ^ 32 := by
  rw [add32_eq, BitVec.toNat_add]

theorem add32_comm (a b : Word) : add32 a b = add32 b a := by
  rw [add32_eq, add32_eq, BitVec.add_comm]

theorem add32_assoc (a b c : Word) : add32 (add32 a b) c = add32 a (add32 b c) := by
  simp only [add32_eq, BitVec.add_assoc]

theorem add32_zero (a : Word) : add32 a 0 = a :=
  (add32_eq a 0).trans (BitVec.add_zero a)

/-- The difference as a number: the borrow adds `2 ^ 32` (R111). -/
theorem sub32_toNat (a b : Word) : (sub32 a b).toNat = (a.toNat + 2 ^ 32 - b.toNat) % 2 ^ 32 := by
  rw [sub32_eq, BitVec.toNat_sub]
  have hb := b.isLt
  congr 1
  omega

theorem mul32_toNat (a b : Word) : (mul32 a b).toNat = (a.toNat * b.toNat) % 2 ^ 32 := by
  rw [mul32_eq, BitVec.toNat_mul]

theorem mul32_zero (a : Word) : mul32 a 0 = 0 :=
  (mul32_eq a 0).trans BitVec.mul_zero

theorem mul32_one (a : Word) : mul32 a 1 = a :=
  (mul32_eq a 1).trans (BitVec.mul_one a)

/-! ### Exclusive or, shift and extension (R114, R115, R117) -/

theorem xor32_getLsbD (a b : Word) (i : Nat) :
    (xor32 a b).getLsbD i = (a.getLsbD i).xor (b.getLsbD i) := by
  rw [xor32_eq, BitVec.getLsbD_xor]

theorem xor32_zero (a : Word) : xor32 a 0 = a :=
  (xor32_eq a 0).trans BitVec.xor_zero

theorem xor32_self (a : Word) : xor32 a a = 0 :=
  (xor32_eq a a).trans BitVec.xor_self

theorem shr32_toNat (a : Word) (n : Nat) : (shr32 a n).toNat = a.toNat / 2 ^ n := by
  rw [shr32_eq, BitVec.toNat_ushiftRight, Nat.shiftRight_eq_div_pow]

/-- A word whose bits all lie below bit `n` is shifted out. -/
theorem shr32_eq_zero {a : Word} {n : Nat} (h : a.toNat < 2 ^ n) : shr32 a n = 0 := by
  refine BitVec.eq_of_toNat_eq ?_
  rw [shr32_toNat, Nat.div_eq_of_lt h]
  rfl

theorem zext32_toNat (d : Byte) : (zext32 d).toNat = d.toNat := by
  rw [zext32_eq, BitVec.toNat_setWidth_of_le (by decide)]

/-- Settles O34: one lemma per operation and law; the corner cases and examples are evaluated. -/
theorem arithmeticIsModuloTwoToThe32 : Obligations.ArithmeticIsModuloTwoToThe32 := by
  refine ⟨fun a b c => ?_, by decide⟩
  exact ⟨add32_toNat a b, add32_comm a b, add32_assoc a b c, add32_zero a, sub32_toNat a b, mul32_toNat a b,
    mul32_zero a, mul32_one a, fun i _ => xor32_getLsbD a b i, xor32_zero a, xor32_self a,
    fun n _ _ => ⟨shr32_toNat a n, shr32_eq_zero⟩, zext32_toNat⟩

/-! ### Four bytes as a word (R116) -/

theorem le32_toNat (b0 b1 b2 b3 : Byte) :
    (le32 b0 b1 b2 b3).toNat = b0.toNat + 2 ^ 8 * b1.toNat + 2 ^ 16 * b2.toNat + 2 ^ 24 * b3.toNat := by
  rw [le32, wordOfBytes_toNat (by simp)]
  simp only [littleEndian]
  omega

/-- Settles O37: the weights of the bytes multiply out, and four bytes stay below `2 ^ 32`. -/
theorem littleEndianWordValue : Obligations.LittleEndianWordValue :=
  ⟨le32_toNat, by decide⟩

end Sys2Proof.Machine
end

section
/-! PROOF. The INIT command (41_init.md R130, R131, R134): the lanes a seed determines, `InitState` and the invariant,
and the two commands that leave `InitState`. -/

namespace Sys2Proof.Machine

/-! ### The lanes a seed determines (R131) -/

theorem initLanes_lane1 (seed : Word) : (initLanes seed).lane1 = seed + 0x9E3779B1#32 + 0x85EBCA77#32 := by
  simp only [initLanes, add32_eq, Config.prime1, Config.prime2]

theorem initLanes_lane2 (seed : Word) : (initLanes seed).lane2 = seed + 0x85EBCA77#32 := by
  simp only [initLanes, add32_eq, Config.prime2]

theorem initLanes_lane3 (seed : Word) : (initLanes seed).lane3 = seed := by rfl

theorem initLanes_lane4 (seed : Word) : (initLanes seed).lane4 = seed - 0x9E3779B1#32 := by
  simp only [initLanes, sub32_eq, Config.prime1]

/-- The two constants of lane 1 make one offset. -/
theorem initLanes_lane1_offset (seed : Word) : (initLanes seed).lane1 = seed + 0x24234428#32 := by
  rw [initLanes_lane1, BitVec.add_assoc]
  rfl

/-- The offset of lane 4 is the constant's two's complement. -/
theorem initLanes_lane4_offset (seed : Word) : (initLanes seed).lane4 = seed + 0x61C8864F#32 := by
  rw [initLanes_lane4, BitVec.sub_eq_add_neg]
  rfl

/-! ### `InitState` -/

@[simp] theorem carryBytes_initState (seed : Word) : carryBytes (initState seed) = [] :=
  carryBytes_of_cellsFrom (z := []) (initState_carry seed)

/-- `InitState` meets the invariant: the carry is the empty list of cells, and the lanes are the seed's own. -/
theorem initState_wf (seed : Word) : (initState seed).wf :=
  ⟨cellsFrom_wf (z := []) (by decide), fun _ => ⟨by simp, by simp, fun _ => by simp⟩⟩

/-! ### The commands that leave it -/

theorem exec_finalize (s : State) : exec .finalize s = execFinalize s := by rfl

/-- FINALIZE of an initialised core leaves `InitState` of the stored seed (R179). -/
theorem exec_finalize_hasher {s t : State} (hi : s.hasher.inited = true) (h : exec .finalize s = .next t) :
    t.hasher = initState s.hasher.seed := by
  rw [exec_finalize] at h
  rcases execFinalize_next h with ⟨hi', -⟩ | ⟨-, d, -, rfl⟩
  · rw [hi] at hi'
    cases hi'
  · exact respond_hasher _ _ _

/-- Settles O15: INIT by its meaning, `InitState` element by element, FINALIZE by the core it leaves. -/
theorem initBuildsTheSeedState : Obligations.InitBuildsTheSeedState := by
  refine ⟨exec_init, fun seed => ⟨initState seed, rfl, ?_⟩, fun s t hi h => ?_, by decide⟩
  · exact ⟨initState_inited seed, initState_seed seed, initLanes_lane1 seed, initLanes_lane1_offset seed,
      initLanes_lane2 seed, initLanes_lane3 seed, initLanes_lane4 seed, initLanes_lane4_offset seed,
      initState_totalLength seed, initState_carryLen seed, carryBytes_initState seed, initState_wf seed⟩
  · have hfinal := exec_finalize_hasher hi h
    exact ⟨hfinal, by rw [hfinal, initState_seed], by rw [hfinal, initState_inited, hi]⟩

end Sys2Proof.Machine
end

section
/-! PROOF. The block mixer (42_absorb.md R151): word `i` of a block, little-endian, goes to `lane[i+1]`. -/

namespace Sys2Proof.Machine

/-! ### Which word of the block each lane receives -/

/-- The window of word `i` on a block of sixteen bytes is bytes `4i` to `4i+3`, in stream order. -/
theorem blockMix_sixteen (l : Lanes) (b0 b1 b2 b3 b4 b5 b6 b7 b8 b9 b10 b11 b12 b13 b14 b15 : Byte) :
    blockMix [b0, b1, b2, b3, b4, b5, b6, b7, b8, b9, b10, b11, b12, b13, b14, b15] l =
      { lane1 := roundLane l.lane1 (le32 b0 b1 b2 b3), lane2 := roundLane l.lane2 (le32 b4 b5 b6 b7),
        lane3 := roundLane l.lane3 (le32 b8 b9 b10 b11), lane4 := roundLane l.lane4 (le32 b12 b13 b14 b15) } := by
  rfl

/-! ### The block of zeros -/

theorem littleEndian_replicate_zero (n : Nat) : littleEndian (List.replicate n 0#8) = 0 := by
  induction n with
  | zero => rfl
  | succ n ih => simp [List.replicate_succ, littleEndian, ih]

theorem wordOfBytes_replicate_zero (n : Nat) : wordOfBytes (List.replicate n 0#8) = 0 :=
  congrArg (BitVec.ofNat 32) (littleEndian_replicate_zero n)

theorem blockWord_replicate_zero (n i : Nat) : blockWord (List.replicate n 0#8) i = 0 := by
  rw [blockWord, List.drop_replicate, List.take_replicate, wordOfBytes_replicate_zero]

theorem blockMix_replicate_zero (n : Nat) (l : Lanes) :
    blockMix (List.replicate n 0#8) l =
      { lane1 := roundLane l.lane1 0, lane2 := roundLane l.lane2 0,
        lane3 := roundLane l.lane3 0, lane4 := roundLane l.lane4 0 } := by
  simp only [blockMix, blockWord_replicate_zero]

/-- Settles O25: the windows of the four words compute on a block of sixteen bytes; a block of zeros gives every
lane the round with the zero word, which fixes no lane but 0 (R150). -/
theorem blockMixPairsWordsWithLanes : Obligations.BlockMixPairsWordsWithLanes := by
  refine ⟨blockMix_sixteen, fun l => ?_, by decide⟩
  rw [blockMix_replicate_zero]
  exact ⟨roundLane_zero_ne, roundLane_zero_ne, roundLane_zero_ne, roundLane_zero_ne⟩

end Sys2Proof.Machine
end

section
/-! PROOF. ABSORB of the empty chunk (42_absorb.md R140, R141). -/

namespace Sys2Proof.Machine

theorem exec_absorb (b : List Byte) (s : State) : exec (.absorb b) s = execAbsorb b s := by rfl

@[simp] theorem absorb_nil (h : Hasher) : absorb [] h = .ok h := by rfl

/-- The counter is below `2 ^ 64` in every state, so no bytes always fit. -/
@[simp] theorem lengthFits_nil (h : Hasher) : lengthFits h [] = true :=
  decide_eq_true h.totalLength.isLt

/-- What ABSORB does to an initialised core when the chunk fits its counter and `Absorb` answers (R140). -/
theorem exec_absorb_ok {b : List Byte} {s : State} {k : Hasher} (hi : s.hasher.inited = true)
    (hf : lengthFits s.hasher b = true) (hk : absorb b s.hasher = .ok k) :
    exec (.absorb b) s = .next (respond { s with hasher := k } .ok 0) := by
  rw [exec_absorb, execAbsorb, whenInited_true hi, if_pos hf, hk, finish]

/-- Settles O18: an initialised core answers `OK` with the core `Absorb` leaves on no bytes, its own; the check of
`inited` comes first and refuses the empty chunk like any other. -/
theorem emptyChunkIsNoOperation : Obligations.EmptyChunkIsNoOperation := fun s =>
  ⟨fun hi => exec_absorb_ok hi (lengthFits_nil s.hasher) (absorb_nil s.hasher),
    exec_uninited (fun _ => Instr.noConfusion)⟩

end Sys2Proof.Machine
end

section
/-! PROOF. The FINALIZE command (43_finalize.md R171 to R176, R179): the start value, the length fold and the two tail
steps in Lean's own operations, and the core it leaves. -/

namespace Sys2Proof.Machine

/-! ### The start value (R171 to R173) -/

theorem converge_eq (l : Lanes) : converge l =
    l.lane1.rotateLeft 1 + l.lane2.rotateLeft 7 + l.lane3.rotateLeft 12 + l.lane4.rotateLeft 18 := by
  simp only [converge, add32_eq, rotl32_eq]

theorem shortSeed_eq (seed : Word) : shortSeed seed = seed + 0x165667B1#32 := by
  rw [shortSeed, add32_eq, Config.prime5]

theorem startValue_long {h : Hasher} (hl : 16 ≤ h.totalLength.toNat) : startValue h = converge h.lanes :=
  if_pos hl

theorem startValue_short {h : Hasher} (hl : h.totalLength.toNat < 16) : startValue h = shortSeed h.seed :=
  if_neg (Nat.not_le.2 hl)

/-! ### The length fold (R174) -/

theorem addLen_toNat (acc : Word) (n : BitVec 64) :
    (addLen acc n).toNat = (acc.toNat + n.toNat % 2 ^ 32) % 2 ^ 32 := by
  rw [addLen, add32_toNat, BitVec.extractLsb'_toNat, Nat.shiftRight_zero]

/-- A length whose low 32 bits are zero is not seen by the fold. -/
theorem addLen_of_low_zero (acc : Word) {n : BitVec 64} (hn : n.extractLsb' 0 32 = 0) : addLen acc n = acc := by
  rw [addLen, hn, add32_zero]

/-- Settles O30: the whole counter chooses the start value, so 2^32 + 5 bytes are a long stream by
`startValue_long`; the worked examples are evaluated. -/
theorem startValueAndLengthFold : Obligations.StartValueAndLengthFold := by
  have hlong : ∀ h : Hasher, h.totalLength.toNat = 2 ^ 32 + 5 → startValue h = converge h.lanes :=
    fun h hl => startValue_long (by omega)
  have hfold : ∀ acc : Word, addLen acc 0 = acc ∧ addLen acc 0x100000000#64 = acc := fun acc =>
    ⟨addLen_of_low_zero acc (by decide), addLen_of_low_zero acc (by decide)⟩
  exact ⟨converge_eq, shortSeed_eq, fun h => ⟨startValue_long, startValue_short⟩, hlong, addLen_toNat, by decide,
    by decide, by decide, by decide, by decide, by decide, by decide, by decide, by decide, hfold, by decide⟩

/-! ### The tail steps (R175, R176) -/

theorem tailWord_eq (acc w : Word) :
    tailWord acc w = (acc + w * 0xC2B2AE3D#32).rotateLeft 17 * 0x27D4EB2F#32 := by
  rw [tailWord, mul32_eq, mul32_eq, add32_eq, rotl32_eq, Config.prime3, Config.prime4]

theorem tailByte_eq (acc b : Word) :
    tailByte acc b = (acc + b * 0x165667B1#32).rotateLeft 11 * 0x9E3779B1#32 := by
  rw [tailByte, mul32_eq, mul32_eq, add32_eq, rotl32_eq, Config.prime5, Config.prime1]

/-- Settles O31: the two formulas; the corner cases and the worked examples are evaluated. -/
theorem tailStepFormulas : Obligations.TailStepFormulas :=
  ⟨tailWord_eq, tailByte_eq, by decide⟩

/-! ### The core it leaves (R179) -/

/-- Settles O28: FINALIZE and INIT of the stored seed both leave `InitState` of that seed. -/
theorem finalizeReinitialisesUnderItsSeed : Obligations.FinalizeReinitialisesUnderItsSeed := by
  intro s t hi h
  have hfinal : t.hasher = initState s.hasher.seed := exec_finalize_hasher hi h
  refine ⟨_, exec_init s.hasher.seed s, hfinal, ?_⟩
  rw [hfinal]
  exact ⟨initState_lanes _, initState_totalLength _, initState_carryLen _, initState_inited _, initState_seed _⟩

end Sys2Proof.Machine
end

section
/-! PROOF. The canonical word of an ABSORB decodes to its chunk again (30_encoding.md R83, R84, R89). -/

namespace Sys2Proof

/-! ### The fields of a word put together from them -/

theorem lenField_commandWord (op : BitVec 3) (len data : Nat) :
    lenField (commandWord op len data) = BitVec.ofNat 5 len := by
  refine BitVec.eq_of_getLsbD_eq fun i hi => ?_
  simp only [lenField, commandWord, BitVec.getLsbD_extractLsb', BitVec.getLsbD_append]
  simp [hi, show ¬ 128 + i < 128 by omega]

theorem dataField_commandWord (op : BitVec 3) (len data : Nat) :
    dataField (commandWord op len data) = BitVec.ofNat 128 data := by
  refine BitVec.eq_of_getLsbD_eq fun i hi => ?_
  simp only [dataField, commandWord, BitVec.getLsbD_extractLsb', BitVec.getLsbD_append]
  simp [hi]

/-! ### The bytes of the DATA field -/

/-- Dividing by a power of `2 ^ 8` forgets the bytes that come first in the stream. -/
theorem littleEndian_div (bytes : List Byte) (k : Nat) :
    littleEndian bytes / 2 ^ (8 * k) = littleEndian (bytes.drop k) := by
  induction bytes generalizing k with
  | nil => simp [littleEndian]
  | cons b bs ih =>
    cases k with
    | zero => simp
    | succ k =>
      have hb := b.isLt
      have hbyte : littleEndian (b :: bs) / 2 ^ 8 = littleEndian bs := by
        rw [littleEndian]
        omega
      rw [List.drop_succ_cons, ← ih, ← hbyte, Nat.div_div_eq_div_mul, ← Nat.pow_add]
      congr 2
      omega

/-- Lane `k` of DATA is byte `k` of the chunk it was spelled from (R83). -/
theorem dataLane_littleEndian {bytes : List Byte} (hlen : bytes.length ≤ 16) {k : Nat} (hk : k < bytes.length) :
    dataLane (BitVec.ofNat 128 (littleEndian bytes)) k = bytes[k] := by
  have hlt : littleEndian bytes < 2 ^ 128 :=
    (Machine.littleEndian_lt bytes).trans_le (Nat.pow_le_pow_right (by decide) (by omega))
  have hb := bytes[k].isLt
  refine BitVec.eq_of_toNat_eq ?_
  rw [dataLane, BitVec.extractLsb'_toNat, BitVec.toNat_ofNat, Nat.mod_eq_of_lt hlt, Nat.shiftRight_eq_div_pow,
    littleEndian_div, List.drop_eq_getElem_cons hk, littleEndian]
  omega

theorem chunkOperand_littleEndian {bytes : List Byte} (hlen : bytes.length ≤ 16) :
    chunkOperand (BitVec.ofNat 128 (littleEndian bytes)) bytes.length = bytes := by
  refine List.ext_getElem (by simp [chunkOperand]) fun k _ hk => ?_
  simp only [chunkOperand, List.getElem_map, List.getElem_range]
  exact dataLane_littleEndian hlen hk

theorem decode_encode_absorb {bytes : List Byte} (hlen : bytes.length ≤ 16) :
    decode (encode (.absorb bytes)) = .ok (.absorb bytes) := by
  have hfield : (lenField (encode (.absorb bytes))).toNat = bytes.length := by
    rw [encode, lenField_commandWord, BitVec.toNat_ofNat]
    omega
  rw [decode_opAbsorb (Laws.OpField.absorb bytes), hfield, if_pos hlen, encode, dataField_commandWord,
    chunkOperand_littleEndian hlen]

end Sys2Proof
end

section
/-! PROOF. `Absorb` in closed form (42_absorb.md R147, R148) and streaming equivalence (R153): what is carried and
the chunk together are one sequence of bytes, whose whole blocks are mixed and whose rest is carried. -/

namespace Sys2Proof.Machine

/-! ### The blocks of a sequence (R145) -/

theorem mixBlocks_add (p q : Nat) (z : List Byte) (l : Lanes) :
    mixBlocks (p + q) z l = mixBlocks q (z.drop (16 * p)) (mixBlocks p z l) := by
  induction p generalizing z l with
  | zero => simp [mixBlocks]
  | succ p ih =>
    rw [Nat.add_right_comm, mixBlocks, mixBlocks, ih, List.drop_drop, Config.blockBytes, Nat.mul_succ,
      Nat.add_comm 16]

/-- Bytes after the blocks that are mixed do not matter. -/
theorem mixBlocks_append {q : Nat} {z : List Byte} (hq : 16 * q ≤ z.length) (y : List Byte) (l : Lanes) :
    mixBlocks q (z ++ y) l = mixBlocks q z l := by
  induction q generalizing z l with
  | zero => rfl
  | succ q ih =>
    rw [mixBlocks, mixBlocks, Config.blockBytes, List.take_append_of_le_length (by omega),
      List.drop_append_of_le_length (by omega), ih (by rw [List.length_drop]; omega)]

/-! ### The core once a sequence is settled -/

/-- The core in which the whole blocks of `z` are mixed and the rest of `z` is the carry (R148). -/
def settled (z : List Byte) (h : Hasher) : Hasher :=
  { h with
    lanes := mixBlocks (z.length / 16) z h.lanes
    carryLen := BitVec.ofNat 5 (z.length % 16)
    carry := cellsFrom 0 (z.drop (16 * (z.length / 16))) }

/-- The core after `Absorb(b)`: the carried bytes and `b` are settled as one sequence. -/
def absorbed (h : Hasher) (b : List Byte) : Hasher :=
  settled (carryBytes h ++ b) (addLength h b.length)

@[simp] theorem carryBytes_settled (z : List Byte) (h : Hasher) :
    carryBytes (settled z h) = z.drop (16 * (z.length / 16)) :=
  carryBytes_of_cellsFrom rfl

/-- Fewer than sixteen bytes mix no block. -/
theorem settled_short {z : List Byte} (hz : z.length < 16) (h : Hasher) :
    settled z h = { h with carryLen := BitVec.ofNat 5 z.length, carry := cellsFrom 0 z } := by
  simp [settled, Nat.div_eq_of_lt hz, Nat.mod_eq_of_lt hz, mixBlocks]

/-- What the first `p` blocks leave of a sequence can be settled after them. -/
theorem settled_drop {p : Nat} {z : List Byte} (hp : 16 * p ≤ z.length) (h : Hasher) :
    settled (z.drop (16 * p)) { h with lanes := mixBlocks p z h.lanes } = settled z h := by
  have hq : z.length / 16 = p + (z.drop (16 * p)).length / 16 := by
    rw [List.length_drop]
    omega
  have hr : (z.drop (16 * p)).length % 16 = z.length % 16 := by
    rw [List.length_drop]
    omega
  simp only [settled, hr]
  rw [hq, mixBlocks_add, List.drop_drop, ← Nat.mul_add]

/-- Settling a sequence and then its rest with `b` is settling both as one. -/
theorem settled_append (z b : List Byte) (h : Hasher) :
    settled (carryBytes (settled z h) ++ b) (settled z h) = settled (z ++ b) h := by
  have hp : 16 * (z.length / 16) ≤ z.length := Nat.mul_div_le _ _
  rw [carryBytes_settled, ← List.drop_append_of_le_length hp,
    ← settled_drop (hp.trans (by simp) : _ ≤ (z ++ b).length) h, mixBlocks_append hp]
  rfl

/-- R153 in closed form. -/
theorem absorbed_absorbed (h : Hasher) (a b : List Byte) :
    absorbed (absorbed h a) b = absorbed h (a ++ b) := by
  have hlen : addLength (addLength h a.length) b.length = addLength h (a ++ b).length := by
    simp [addLength, BitVec.add_assoc, BitVec.ofNat_add]
  calc absorbed (absorbed h a) b
      = settled (carryBytes h ++ a ++ b) (addLength (addLength h a.length) b.length) :=
        settled_append (carryBytes h ++ a) b (addLength (addLength h a.length) b.length)
    _ = absorbed h (a ++ b) := by rw [hlen, List.append_assoc, absorbed]

theorem absorbed_totalLength {h : Hasher} {b : List Byte} (hb : h.totalLength.toNat + b.length < 2 ^ 64) :
    (absorbed h b).totalLength.toNat = h.totalLength.toNat + b.length := by
  have hsum : (absorbed h b).totalLength = h.totalLength + BitVec.ofNat 64 b.length := rfl
  rw [hsum, BitVec.toNat_add, BitVec.toNat_ofNat]
  omega

/-! ### The steps of `Absorb`, on a carry that lists `y` -/

section
variable {h : Hasher} {y : List Byte} (hc : h.carry = cellsFrom 0 y) (hl : h.carryLen.toNat = y.length)
include hc hl

theorem absorbBuffer_eq {b : List Byte} (hb : y.length + b.length < 16) :
    absorbBuffer b h = .ok (settled (y ++ b) h) := by
  have hw := memWrite_end y b hb.le
  have hz : (y ++ b).length < 16 := by rwa [List.length_append]
  rw [settled_short hz]
  simp [absorbBuffer, hc, hl, hw, setCarryLen, keepBelow_cellsFrom, bind, Except.bind, pure, Except.pure,
    List.take_of_length_le]

/-- Step 4 mixes the first block when something is carried, no block otherwise; the cursor then stands behind it,
and nothing is carried. -/
theorem absorbComplete_eq {b : List Byte} (hy : y.length < 16) (hb : 16 ≤ y.length + b.length) :
    ∃ p, 16 * p ≤ (y ++ b).length ∧ absorbComplete b h =
      .ok ({ h with lanes := mixBlocks p (y ++ b) h.lanes, carryLen := 0, carry := [] }, (y ++ b).drop (16 * p)) := by
  rcases Nat.eq_zero_or_pos y.length with hzero | hpos
  · obtain rfl : y = [] := List.length_eq_zero_iff.1 hzero
    have hcl : h.carryLen = 0 := BitVec.eq_of_toNat_eq hl
    have hself : { h with carryLen := 0, carry := [] } = h := by rw [← hcl, ← cellsFrom_nil 0, ← hc]
    refine ⟨0, by simp, ?_⟩
    rw [absorbComplete, if_neg (by omega), mixBlocks, hself]
    rfl
  · have hfill : y ++ b.take (16 - y.length) = (y ++ b).take 16 := by
      rw [List.take_append, List.take_of_length_le hy.le]
    have hcursor : b.drop (16 - y.length) = (y ++ b).drop 16 := by
      rw [List.drop_append, List.drop_of_length_le hy.le, List.nil_append]
    have hblk : ((y ++ b).take 16).length = 16 := by simp; omega
    have hwrite := memWrite_end y (b.take (16 - y.length)) (by simp [Config.carryCap]; omega)
    have hread := fetchCells_cellsFrom (z := (y ++ b).take 16) (a := 0) (n := 16) (by omega) hblk.le
    rw [hfill] at hwrite
    rw [List.drop_zero, List.take_of_length_le hblk.le] at hread
    refine ⟨1, by simp; omega, ?_⟩
    simp [absorbComplete, hc, hl, hpos, hwrite, hread, memReadBlock, Config.blockBytes, setCarryLen,
      keepBelow_cellsFrom, mixBlocks, hcursor, bind, Except.bind, pure, Except.pure]

omit hc hl in
/-- Step 6 stores like step 3, where nothing is carried. -/
theorem absorbKeep_eq {rest : List Byte} (hc : h.carry = []) (hl : h.carryLen = 0) (hr : rest.length < 16) :
    absorbKeep rest h = .ok (settled rest h) := by
  have hbuffer : absorbKeep rest h = absorbBuffer rest h := by simp [absorbKeep, absorbBuffer, hl]
  rw [hbuffer]
  exact absorbBuffer_eq (y := []) hc (by simp [hl]) (by simpa using hr)

theorem absorbBlocks_eq {b : List Byte} (hy : y.length < 16) (hb : 16 ≤ y.length + b.length) :
    absorbBlocks b h = .ok (settled (y ++ b) h) := by
  obtain ⟨p, hp, hg⟩ := absorbComplete_eq hc hl hy hb
  generalize y ++ b = z at hp hg ⊢
  generalize hrest : z.drop (16 * p) = rest at hg
  have hq : 16 * (rest.length / 16) ≤ rest.length := Nat.mul_div_le _ _
  have hkeep := absorbKeep_eq (rest := rest.drop (16 * (rest.length / 16)))
    (h := { h with
      lanes := mixBlocks (rest.length / 16) rest (mixBlocks p z h.lanes), carryLen := 0, carry := [] })
    rfl rfl (by rw [List.length_drop]; omega)
  calc absorbBlocks b h
      = .ok (settled (rest.drop (16 * (rest.length / 16)))
          { h with lanes := mixBlocks (rest.length / 16) rest (mixBlocks p z h.lanes) }) := by
        rw [absorbBlocks, hg]
        exact hkeep
    _ = .ok (settled (z.drop (16 * p)) { h with lanes := mixBlocks p z h.lanes }) := by
        rw [hrest, ← settled_drop hq]
    _ = .ok (settled z h) := by rw [settled_drop hp]

end

/-! ### `Absorb` under the invariant -/

section
variable {h : Hasher} (hw : h.wf) (hi : h.inited = true)
include hw hi

theorem absorbed_nil : absorbed h [] = h := by
  have hz : (carryBytes h).length < 16 := (carryBytes_length hw hi).trans_lt (carryLen_lt hw hi)
  rw [absorbed, List.append_nil, settled_short hz, ← carry_eq_cellsFrom hw hi,
    carryBytes_length hw hi]
  simp [addLength]

/-- `Absorb` answers, with the carried bytes and the chunk settled as one sequence (R148). -/
theorem absorb_eq_absorbed (b : List Byte) : absorb b h = .ok (absorbed h b) := by
  have hc : (addLength h b.length).carry = cellsFrom 0 (carryBytes h) := by
    rw [addLength_carry, ← carry_eq_cellsFrom hw hi]
  have hl : (addLength h b.length).carryLen.toNat = (carryBytes h).length := (carryBytes_length hw hi).symm
  have hlt : (carryBytes h).length < 16 := (carryBytes_length hw hi).trans_lt (carryLen_lt hw hi)
  unfold absorb
  split
  · next h0 => rw [List.length_eq_zero_iff.1 h0, absorbed_nil hw hi]
  · split
    · next hs => exact absorbBuffer_eq hc hl (carryBytes_length hw hi ▸ hs)
    · next hs => exact absorbBlocks_eq hc hl hlt (carryBytes_length hw hi ▸ Nat.le_of_not_lt hs)

/-- The invariant is kept while the stream stays below 2^64 bytes. -/
theorem absorbed_wf {b : List Byte} (hb : h.totalLength.toNat + b.length < 2 ^ 64) : (absorbed h b).wf := by
  obtain ⟨hmod, -, hlanes⟩ := hw.2 hi
  have hz : (carryBytes h ++ b).length = h.totalLength.toNat % 16 + b.length := by
    rw [List.length_append, carryBytes_length hw hi, hmod]
  have htotal := absorbed_totalLength hb
  generalize hzdef : carryBytes h ++ b = z at hz
  have hrest : (z.drop (16 * (z.length / 16))).length = z.length % 16 := by
    rw [List.length_drop]
    omega
  have hcl : (absorbed h b).carryLen.toNat = z.length % 16 := by
    rw [absorbed, hzdef, settled, BitVec.toNat_ofNat]
    omega
  have hcarry : (absorbed h b).carry = cellsFrom 0 (z.drop (16 * (z.length / 16))) := by
    rw [absorbed, hzdef, settled]
  refine ⟨hcarry ▸ cellsFrom_wf (by rw [hrest, Config.carryCap]; omega), fun _ => ⟨?_, ?_, fun hshort => ?_⟩⟩
  · rw [hcl, htotal]
    omega
  · rw [hcarry, map_fst_cellsFrom, hrest, hcl, List.range_eq_range']
  · rw [absorbed, hzdef, settled_short (by omega)]
    exact hlanes (by omega)

end

end Sys2Proof.Machine
end

section
/-! PROOF. FINALIZE answers a digest in every state of the invariant (43_finalize.md R177): the tail it folds is the
carry, and every cell below `carry_len` holds a value. -/

namespace Sys2Proof.Machine

section
variable {z : List Byte} (hz : z.length ≤ Config.carryCap)
include hz

theorem foldTailWords_ok {n tcur : Nat} (hn : tcur + 4 * n ≤ z.length) (acc : Word) :
    ∃ acc', foldTailWords (cellsFrom 0 z) n acc tcur = .ok acc' := by
  induction n generalizing tcur acc with
  | zero => exact ⟨acc, rfl⟩
  | succ n ih =>
    obtain ⟨acc', hacc⟩ := ih (tcur := tcur + 4) (by omega) (tailWord acc (wordOfBytes ((z.drop tcur).take 4)))
    refine ⟨acc', ?_⟩
    rw [foldTailWords, memRead4, fetchCells_cellsFrom (by omega) hz]
    exact hacc

theorem foldTailBytes_ok {n tcur : Nat} (hn : tcur + n ≤ z.length) (acc : Word) :
    ∃ acc', foldTailBytes (cellsFrom 0 z) n acc tcur = .ok acc' := by
  induction n generalizing tcur acc with
  | zero => exact ⟨acc, rfl⟩
  | succ n ih =>
    obtain ⟨acc', hacc⟩ := ih (tcur := tcur + 1) (by omega) (tailByte acc (zext32 z[tcur]))
    refine ⟨acc', ?_⟩
    rw [foldTailBytes, memRead1, fetchCell_cellsFrom (by omega) hz]
    exact hacc

end

theorem digest_ok {h : Hasher} (hw : h.wf) (hi : h.inited = true) : ∃ d, digest h = .ok d := by
  have hlen := carryBytes_length hw hi
  have hcap : (carryBytes h).length ≤ Config.carryCap := by
    rw [hlen]
    exact (carryLen_lt hw hi).le
  obtain ⟨words, hwords⟩ := foldTailWords_ok hcap (n := h.carryLen.toNat / 4) (tcur := 0) (by omega)
    (addLen (startValue h) h.totalLength)
  obtain ⟨acc, hacc⟩ := foldTailBytes_ok hcap (n := h.carryLen.toNat % 4) (tcur := 4 * (h.carryLen.toNat / 4))
    (by omega) words
  have htail : foldTail h (addLen (startValue h) h.totalLength) = .ok acc := by
    rw [foldTail, carry_eq_cellsFrom hw hi, hwords]
    exact hacc
  refine ⟨avalanche acc, ?_⟩
  rw [digest, htail]
  rfl

theorem exec_finalize_ok {s : State} {d : Word} (hi : s.hasher.inited = true) (hd : digest s.hasher = .ok d) :
    exec .finalize s = .next (respond { s with hasher := initState s.hasher.seed } .digest d) := by
  rw [exec_finalize, execFinalize, whenInited_true hi, hd]

end Sys2Proof.Machine
end

section
/-! PROOF. A list of chunks sent as commands (44_oneshot_and_laws.md R203): the run that takes them is `Absorb` of
their concatenation, so how the bytes were cut leaves no trace in the core. -/

namespace Sys2Proof.Machine

/-- The machine `s` once it has taken `n` ABSORBs whose bytes are `b`, with `rest` left to present. -/
def afterChunks (s : State) (n : Nat) (b : List Byte) (rest : List HostEvent) : State where
  hasher := absorbed s.hasher b
  inputs := rest
  responses := s.responses ++ List.replicate n (responseWord .ok 0)
  resetCount := s.resetCount

/-- What comes after the chunks `b` is what comes after one chunk `c` and then `b`. -/
theorem afterChunks_afterChunks (s : State) (n : Nat) (c b : List Byte) (rest rest' : List HostEvent) :
    afterChunks (afterChunks s 1 c rest) n b rest' = afterChunks s (n + 1) (c ++ b) rest' := by
  simp [afterChunks, absorbed_absorbed, List.replicate_succ]

theorem step_absorb_chunk {s : State} {c : List Byte} {rest : List HostEvent} (hw : s.Inv)
    (hi : s.hasher.inited = true) (hc : c.length ≤ 16) (hlen : s.hasher.totalLength.toNat + c.length < 2 ^ 64)
    (hin : s.inputs = .command (encode (.absorb c)) :: rest) : step s = .next (afterChunks s 1 c rest) := by
  rw [step_command hin (decode_encode_absorb hc)]
  exact exec_absorb_ok hi (decide_eq_true hlen) (absorb_eq_absorbed hw hi c)

/-- The run that takes a list of chunks absorbs their concatenation, with one `OK` per chunk. -/
theorem run_chunks {chunks : List (List Byte)} {s : State} {rest : List HostEvent} (hw : s.Inv)
    (hi : s.hasher.inited = true) (hc : ∀ c ∈ chunks, c.length ≤ 16)
    (hlen : s.hasher.totalLength.toNat + chunks.flatten.length < 2 ^ 64)
    (hin : s.inputs = present (chunks.map .absorb) ++ rest) :
    run chunks.length s = .next (afterChunks s chunks.length chunks.flatten rest) := by
  induction chunks generalizing s with
  | nil =>
    have hs : afterChunks s 0 [] rest = s := by
      have hrest : s.inputs = rest := hin
      simp only [afterChunks, absorbed_nil hw hi, List.replicate_zero, List.append_nil, ← hrest]
    rw [List.flatten_nil, List.length_nil, hs, run_zero]
  | cons c cs ih =>
    rw [List.forall_mem_cons] at hc
    rw [List.flatten_cons, List.length_append, ← Nat.add_assoc] at hlen
    have hfit : s.hasher.totalLength.toNat + c.length < 2 ^ 64 := by omega
    have hstep := step_absorb_chunk hw hi hc.1 hfit hin
    rw [List.length_cons, run_succ _ hstep, List.flatten_cons, ← afterChunks_afterChunks]
    refine ih (absorbed_wf hw hi hfit) hi hc.2 ?_ rfl
    exact (absorbed_totalLength hfit).symm ▸ hlen

/-- FINALIZE after the chunks answers the digest of the core they left, whatever the cut. -/
theorem exec_finalize_afterChunks {s : State} {n : Nat} {b : List Byte} {rest : List HostEvent} {d : Word}
    (hi : s.hasher.inited = true) (hd : digest (absorbed s.hasher b) = .ok d) :
    exec .finalize (afterChunks s n b rest) = .next { afterChunks s n b rest with
      hasher := initState (absorbed s.hasher b).seed
      responses := (afterChunks s n b rest).responses ++ [responseWord .digest d] } :=
  exec_finalize_ok hi hd

/-- Settles O51: both runs end in `Absorb` of the one concatenation (`run_chunks`), and FINALIZE answers the digest of
that core. -/
theorem anySplitLeavesTheSameState : Obligations.AnySplitLeavesTheSameState := by
  intro s s' chunks chunks' rest rest' hw hi hcore hc hc' hflat hlen hin hin'
  have hw' : s'.Inv := by rwa [State.Inv, hcore]
  have hi' : s'.hasher.inited = true := hcore ▸ hi
  obtain ⟨d, hd⟩ := digest_ok (absorbed_wf hw hi hlen) hi
  have hrun' := run_chunks hw' hi' hc' (by rwa [hcore, hflat]) hin'
  rw [hflat] at hrun'
  have hsame : absorbed s'.hasher chunks.flatten = absorbed s.hasher chunks.flatten := by rw [hcore]
  refine ⟨absorbed s.hasher chunks.flatten, afterChunks s chunks.length chunks.flatten rest,
    afterChunks s' chunks'.length chunks.flatten rest', d, absorb_eq_absorbed hw hi _,
    run_chunks hw hi hc hlen hin, hrun', rfl, ?_, exec_finalize_afterChunks hi hd, ?_⟩
  · rw [← hsame]
    rfl
  · rw [← hsame]
    exact exec_finalize_afterChunks hi' (hsame ▸ hd)

end Sys2Proof.Machine
end

section
/-! PROOF. The two error answers (60_exceptions.md R222 to R224): in bits, and who gives them. -/

namespace Sys2Proof.Machine

/-! ### The answers in bits (R90, R224) -/

theorem raiseError_errIllegal (s : State) :
    raiseError s .errIllegal = { s with responses := s.responses ++ [0b10#2 ++ 0#32] } := by rfl

theorem raiseError_errUninit (s : State) :
    raiseError s .errUninit = { s with responses := s.responses ++ [0b11#2 ++ 0#32] } := by rfl

/-! ### Who gives them -/

/-- Settles O9: the step on an illegal word raises the error before any command runs (`step_illegal`). -/
theorem illegalWordsAnswerErrIllegal : Obligations.IllegalWordsAnswerErrIllegal := by
  intro s w rest e hin hd
  rw [step_illegal hin hd, raiseError_errIllegal]

/-- Settles O10: both commands but INIT are refused (`exec_uninited`); INIT makes no check and leaves `InitState`. -/
theorem uninitialisedCommandsAnswerErrUninit : Obligations.UninitialisedCommandsAnswerErrUninit := by
  intro s hi
  have hrefused {i : Instr} (hne : ∀ seed, i ≠ .init seed) :
      exec i s = .next { s with responses := s.responses ++ [0b11#2 ++ 0#32] } := by
    rw [exec_uninited hne hi, raiseError_errUninit]
  refine ⟨fun b => hrefused (by simp), hrefused (by simp), fun seed => ?_⟩
  exact ⟨initState seed, initState_inited seed, exec_init seed s⟩

end Sys2Proof.Machine
end

section
/-! PROOF. The encoder against the decoder (30_encoding.md R82 to R89, R96): the round trip, the opcode table's rows,
and the bits of the canonical words. -/

namespace Sys2Proof

/-! ### The round trip -/

theorem seedOperand_toNat (seed : Word) : seedOperand (BitVec.ofNat 128 seed.toNat) = seed := by
  have hseed := seed.isLt
  refine BitVec.eq_of_toNat_eq ?_
  rw [seedOperand, BitVec.extractLsb'_toNat, BitVec.toNat_ofNat, Nat.shiftRight_zero]
  omega

theorem decode_encode_init (seed : Word) : decode (encode (.init seed)) = .ok (.init seed) := by
  rw [decode_init (Laws.OpField.init seed), ← seedOperand_dataField, encode, dataField_commandWord,
    seedOperand_toNat]

theorem decode_encode {i : Instr} (hw : i.WellFormed) : decode (encode i) = .ok i := by
  cases i with
  | init seed => exact decode_encode_init seed
  | absorb chunk => exact decode_encode_absorb (of_decide_eq_true hw)
  | finalize => exact decode_finalize Laws.OpField.finalize

/-- Settles O4: each command by the fields of the word put together from them. -/
theorem decodeOfEncodeIsTheCommand : Obligations.DecodeOfEncodeIsTheCommand :=
  fun _ => decode_encode

/-! ### Which command a word decodes to, by its fields -/

/-- What a legal word's fields say about the command it carries (R86, R89). -/
theorem fields_of_decode {w : CommandWord} {i : Instr} (hd : decode w = .ok i) :
    opField w = Laws.OpField.opcode i ∧ ∀ b, i = .absorb b → (lenField w).toNat ≤ 16 := by
  by_cases hinit : opField w = opInit
  · rw [decode_init hinit, Except.ok.injEq] at hd
    subst hd
    exact ⟨hinit, nofun⟩
  by_cases habsorb : opField w = opAbsorb
  · rw [decode_opAbsorb habsorb] at hd
    split at hd
    · next hlen =>
      rw [Except.ok.injEq] at hd
      subst hd
      exact ⟨habsorb, fun _ _ => hlen⟩
    · cases hd
  by_cases hfinalize : opField w = opFinalize
  · rw [decode_finalize hfinalize, Except.ok.injEq] at hd
    subst hd
    exact ⟨hfinalize, nofun⟩
  · rw [decode_reservedOp hinit habsorb hfinalize] at hd
    cases hd

theorem decode_init_iff (w : CommandWord) : (∃ s, decode w = .ok (.init s)) ↔ opField w = opInit :=
  ⟨fun ⟨_, hd⟩ => (fields_of_decode hd).1, fun h => ⟨_, decode_init h⟩⟩

theorem decode_absorb_iff (w : CommandWord) :
    (∃ b, decode w = .ok (.absorb b)) ↔ opField w = opAbsorb ∧ (lenField w).toNat ≤ 16 :=
  ⟨fun ⟨b, hd⟩ => ⟨(fields_of_decode hd).1, (fields_of_decode hd).2 b rfl⟩, fun h => ⟨_, decode_absorb h.1 h.2⟩⟩

theorem decode_finalize_iff (w : CommandWord) : decode w = .ok .finalize ↔ opField w = opFinalize :=
  ⟨fun hd => (fields_of_decode hd).1, decode_finalize⟩

/-- A word is illegal exactly when it carries no command. -/
theorem decode_error_iff (w : CommandWord) : (∃ e, decode w = .error e) ↔
    ¬ (∃ s, decode w = .ok (.init s)) ∧ ¬ (∃ b, decode w = .ok (.absorb b)) ∧ ¬ decode w = .ok .finalize := by
  rcases hd : decode w with e | i
  · simp
  · cases i <;> simp

/-! ### The rows of the opcode table (R86) -/

/-- A row whose mask is the top `n` bits reads those bits and no others. -/
theorem and_topMask_eq_iff {n m : Nat} (w : BitVec (n + m)) (v : BitVec n) :
    w &&& (BitVec.allOnes n ++ 0#m) = v ++ 0#m ↔ w.extractLsb' m n = v := by
  have hw : w = w.extractLsb' m n ++ w.extractLsb' 0 m := by
    simp
  have hmask : w &&& (BitVec.allOnes n ++ 0#m) = w.extractLsb' m n ++ 0#m := by
    conv_lhs => rw [hw, BitVec.and_append]
    simp
  rw [hmask]
  constructor
  · intro h
    exact (BitVec.append_left_inj 0#m).1 h
  · rintro rfl
    rfl

/-- The rows of INIT and FINALIZE have the mask of the operation code. -/
theorem and_opMask_eq_iff (w : CommandWord) (op : BitVec 3) :
    w &&& 0xE000000000000000000000000000000000#136 = op ++ 0#133 ↔ opField w = op :=
  and_topMask_eq_iff (n := 3) (m := 133) w op

/-- The two rows of ABSORB together say `OP` = 010 and `LEN` ≤ 16; they look at the top eight bits alone. -/
theorem absorbRows_iff (w : CommandWord) :
    w &&& 0xF000000000000000000000000000000000#136 = 0x4000000000000000000000000000000000#136 ∨
      w &&& 0xFF00000000000000000000000000000000#136 = 0x5000000000000000000000000000000000#136 ↔
    opField w = opAbsorb ∧ (lenField w).toNat ≤ 16 := by
  have hrow4 := and_topMask_eq_iff (n := 4) (m := 132) w 0b0100#4
  have hrow8 := and_topMask_eq_iff (n := 8) (m := 128) w 0x50#8
  have hlow (start len : Nat) (h : start + len ≤ 8) :
      (w.extractLsb' 128 8).extractLsb' start len = w.extractLsb' (128 + start) len := by
    ext k hk
    simp [Nat.add_assoc, show start + k < 8 by omega]
  have hcontrol : ∀ c : BitVec 8, (c.extractLsb' 4 4 = 0b0100#4 ∨ c = 0x50#8) ↔
      (c.extractLsb' 5 3 = opAbsorb ∧ (c.extractLsb' 0 5).toNat ≤ 16) := by decide
  have hop : (w.extractLsb' 128 8).extractLsb' 5 3 = opField w := hlow 5 3 (by decide)
  have hlen : (w.extractLsb' 128 8).extractLsb' 0 5 = lenField w := hlow 0 5 (by decide)
  rw [← hop, ← hlen, ← hcontrol, hlow 4 4 (by decide)]
  exact or_congr hrow4 hrow8

/-- Settles O2: each row by the bits under its mask, each command by the fields it is known by. -/
theorem opcodeTableMatchesTheDecoder : Obligations.OpcodeTableMatchesTheDecoder := by
  intro w
  have hinit := (decode_init_iff w).trans (and_opMask_eq_iff w opInit).symm
  have habsorb := (decode_absorb_iff w).trans (absorbRows_iff w).symm
  have hfinalize := (decode_finalize_iff w).trans (and_opMask_eq_iff w opFinalize).symm
  refine ⟨hinit, habsorb, hfinalize, ?_⟩
  rw [decode_error_iff, hinit, habsorb, hfinalize, not_or, and_assoc]
  exact Iff.rfl

/-! ### The canonical words in numbers (R86, last sentence) -/

theorem commandWord_toNat (op : BitVec 3) (len data : Nat) :
    (commandWord op len data).toNat = op.toNat * 2 ^ 133 + len % 2 ^ 5 * 2 ^ 128 + data % 2 ^ 128 := by
  rw [commandWord, BitVec.toNat_append, BitVec.toNat_append, BitVec.toNat_ofNat, BitVec.toNat_ofNat,
    ← Nat.shiftLeft_add_eq_or_of_lt (Nat.mod_lt _ (by decide)),
    ← Nat.shiftLeft_add_eq_or_of_lt (Nat.mod_lt _ (by decide)), Nat.shiftLeft_eq, Nat.shiftLeft_eq]
  omega

theorem encode_init_eq (s : Word) : encode (.init s) = BitVec.ofNat 136 (0x20 * 2 ^ 128 + s.toNat) := by
  have hs := s.isLt
  refine BitVec.eq_of_toNat_eq ?_
  rw [encode, commandWord_toNat, BitVec.toNat_ofNat, opInit]
  norm_num
  omega

theorem controlByte_encode_absorb {b : List Byte} (hb : b.length ≤ 16) :
    (encode (.absorb b)).extractLsb' 128 8 = BitVec.ofNat 8 (0x40 + b.length) := by
  refine BitVec.eq_of_toNat_eq ?_
  rw [encode, BitVec.extractLsb'_toNat, commandWord_toNat, BitVec.toNat_ofNat, Nat.shiftRight_eq_div_pow, opAbsorb]
  norm_num
  omega

/-- The lanes behind the chunk are zero. -/
theorem unusedLane_encode_absorb {b : List Byte} {k : Nat} (hb : b.length ≤ k) (hk : k < 16) :
    (encode (.absorb b)).extractLsb' (8 * k) 8 = 0#8 := by
  have hlt : littleEndian b < 2 ^ 128 :=
    (Machine.littleEndian_lt b).trans_le (Nat.pow_le_pow_right (by decide) (by omega))
  refine BitVec.eq_of_toNat_eq ?_
  rw [← dataLane_dataField _ hk, encode, dataField_commandWord, dataLane, BitVec.extractLsb'_toNat,
    BitVec.toNat_ofNat, Nat.mod_eq_of_lt hlt, Nat.shiftRight_eq_div_pow, littleEndian_div,
    List.drop_of_length_le hb]
  rfl

/-- Settles O5: the words in numbers, and the unused lanes of an ABSORB one by one. -/
theorem canonicalWordsHaveIgnoredBitsZero : Obligations.CanonicalWordsHaveIgnoredBitsZero :=
  ⟨encode_init_eq, fun _ hb => ⟨controlByte_encode_absorb hb, fun _ => unusedLane_encode_absorb⟩, by decide⟩

/-- Settles O6: fixed words, evaluated. -/
theorem workedEncodingsDecode : Obligations.WorkedEncodingsDecode := by
  unfold Obligations.WorkedEncodingsDecode
  decide

/-! ### The chunk in the lanes of DATA (R83) -/

/-- Consecutive lanes stand for the number in the bits they cover. -/
theorem littleEndian_lanes (data : BitVec 128) (a n : Nat) :
    littleEndian ((List.range' a n).map (dataLane data)) = data.toNat / 2 ^ (8 * a) % 2 ^ (8 * n) := by
  induction n generalizing a with
  | zero => simp [littleEndian, Nat.mod_one]
  | succ n ih =>
    rw [List.range'_succ, List.map_cons, littleEndian, ih, dataLane, BitVec.extractLsb'_toNat,
      Nat.shiftRight_eq_div_pow, Nat.mul_succ, Nat.mul_succ, Nat.pow_add, ← Nat.div_div_eq_div_mul,
      Nat.add_comm (8 * n), Nat.pow_add, Nat.mod_mul]

/-- Four lanes from lane `4i` up are one word of DATA. -/
theorem blockWord_chunkOperand (data : BitVec 128) {i : Nat} (hi : i < 4) :
    Machine.blockWord (chunkOperand data 16) i = data.extractLsb' (32 * i) 32 := by
  have hwindow : ((chunkOperand data 16).drop (4 * i)).take 4 = (List.range' (4 * i) 4).map (dataLane data) := by
    refine List.ext_getElem ?_ fun j _ _ => ?_
    · simp [chunkOperand]
      omega
    · simp [chunkOperand]
  refine BitVec.eq_of_toNat_eq ?_
  rw [Machine.blockWord, hwindow, Machine.wordOfBytes_toNat (by simp), littleEndian_lanes, BitVec.extractLsb'_toNat,
    Nat.shiftRight_eq_div_pow, ← Nat.mul_assoc]

/-- Settles O7: the chunk is a map over the lanes below `LEN`. -/
theorem chunkBytesAreTheDataLanes : Obligations.ChunkBytesAreTheDataLanes := by
  refine fun data => ⟨fun n _ => ⟨by simp [chunkOperand], fun k hk => by simp [chunkOperand, dataLane, hk]⟩,
    fun n _ data' hlanes => ?_, fun i hi => blockWord_chunkOperand data hi⟩
  exact List.map_congr_left fun k hk => hlanes k (List.mem_range.1 hk)

end Sys2Proof
end

section
/-! PROOF. The invariant of the state at rest (10_state.md R29 to R31, R237): what each command does to a core that
meets it, and that every step keeps it. -/

namespace Sys2Proof.Machine

/-! ### ABSORB of an initialised core -/

/-- U1: the length check comes before anything is written. -/
theorem exec_absorb_refused {b : List Byte} {s : State} (hi : s.hasher.inited = true)
    (hb : 2 ^ 64 ≤ s.hasher.totalLength.toNat + b.length) :
    exec (.absorb b) s = .refused .lengthCounterOverflow := by
  have hfits : lengthFits s.hasher b = false := decide_eq_false (Nat.not_lt.2 hb)
  rw [exec_absorb, execAbsorb, whenInited_true hi, hfits]
  rfl

/-- Settles O19: the refusal of the length check. -/
theorem absorbPastTheCounterIsRefused : Obligations.AbsorbPastTheCounterIsRefused :=
  fun _ _ hi hb => exec_absorb_refused hi hb

section
variable {s t : State} {b : List Byte} (hw : s.Inv) (hi : s.hasher.inited = true)
include hw hi

theorem exec_absorb_fits (hb : s.hasher.totalLength.toNat + b.length < 2 ^ 64) :
    exec (.absorb b) s = .next (respond { s with hasher := absorbed s.hasher b } .ok 0) :=
  exec_absorb_ok hi (decide_eq_true hb) (absorb_eq_absorbed hw hi b)

/-- An ABSORB that answers had room in the counter, and leaves the closed form of R148. -/
theorem exec_absorb_next (h : exec (.absorb b) s = .next t) :
    s.hasher.totalLength.toNat + b.length < 2 ^ 64 ∧
      t = respond { s with hasher := absorbed s.hasher b } .ok 0 := by
  rcases Nat.lt_or_ge (s.hasher.totalLength.toNat + b.length) (2 ^ 64) with hb | hb
  · rw [exec_absorb_fits hw hi hb, Host.Outcome.next.injEq] at h
    exact ⟨hb, h.symm⟩
  · rw [exec_absorb_refused hi hb] at h
    cases h

end

/-! ### A core that is not initialised -/

/-- Without `inited` the invariant is about the carry alone. -/
theorem wf_of_uninited {h : Hasher} (hi : h.inited = false) (hc : h.carry.wf) : h.wf :=
  ⟨hc, fun ht => by simp [hi] at ht⟩

theorem afterReset_wf (k : Nat) : (Hasher.afterReset k).wf :=
  wf_of_uninited (afterReset_inited k) (cellsFrom_wf (z := []) (by decide))

/-- A refused command leaves the core as it was (R224). -/
theorem exec_uninited_hasher {i : Instr} {s t : State} (hne : ∀ seed, i ≠ .init seed)
    (hi : s.hasher.inited = false) (h : exec i s = .next t) : t.hasher = s.hasher := by
  rw [exec_uninited hne hi, Host.Outcome.next.injEq] at h
  rw [← h, raiseError_hasher]

/-! ### Every step keeps the invariant -/

theorem exec_init_hasher {seed : Word} {s t : State} (h : exec (.init seed) s = .next t) :
    t.hasher = initState seed := by
  rw [exec_init, Host.Outcome.next.injEq] at h
  rw [← h, respond_hasher]

theorem exec_keeps_inv {i : Instr} {s t : State} (hw : s.Inv) (h : exec i s = .next t) : t.Inv := by
  unfold State.Inv
  cases i with
  | init seed => exact exec_init_hasher h ▸ initState_wf seed
  | absorb b =>
    cases hi : s.hasher.inited with
    | false => exact exec_uninited_hasher (by simp) hi h ▸ hw
    | true =>
      obtain ⟨hb, rfl⟩ := exec_absorb_next hw hi h
      exact absorbed_wf hw hi hb
  | finalize =>
    cases hi : s.hasher.inited with
    | false => exact exec_uninited_hasher (by simp) hi h ▸ hw
    | true => exact exec_finalize_hasher hi h ▸ initState_wf s.hasher.seed

theorem step_keeps_inv {s t : State} (hw : s.Inv) (h : step s = .next t) : t.Inv := by
  rcases step_next_cases h with ⟨-, rfl⟩ | ⟨rest, -, rfl⟩ | ⟨w, rest, e, -, -, rfl⟩ | ⟨w, rest, i, -, -, hx⟩
  · exact hw
  · exact afterReset_wf _
  · exact hw
  · exact exec_keeps_inv (s := { s with inputs := rest }) hw hx

/-- Settles O38: the events of a step, and of a command word each command. -/
theorem stepKeepsTheInvariant : Obligations.StepKeepsTheInvariant :=
  fun _ _ => step_keeps_inv

/-- Settles O39: the base cases of O38. -/
theorem resetMeetsTheInvariant : Obligations.ResetMeetsTheInvariant :=
  ⟨afterReset_wf 0, afterReset_inited 0, fun s => afterReset_wf (s.resetCount + 1), initState_wf⟩

end Sys2Proof.Machine
end

section
/-! PROOF. What an uninitialised core holds beside `inited` reaches nothing (44_oneshot_and_laws.md R202,
93_implementation_defined.md U2): machines that differ only there answer every event alike. -/

namespace Sys2Proof.Machine

/-- Two outcomes of one kind: the same fault, the same refusal, or next states that differ at most in what an
uninitialised core holds. -/
def Alike (x y : Host.Outcome State Fault Refusal) : Prop :=
  (∃ s t, x = .next s ∧ y = .next t ∧ SameOutside s t) ∨
  (∃ f, x = .fault f ∧ y = .fault f) ∨
  (∃ r, x = .refused r ∧ y = .refused r)

theorem alike_next {s t : State} (h : SameOutside s t) : Alike (.next s) (.next t) :=
  .inl ⟨s, t, rfl, rfl, h⟩

/-! ### Events -/

section
variable {s t : State} (hst : SameOutside s t)
include hst

/-- A command that writes one core into both machines leaves nothing of the difference. -/
theorem sameOutside_respond (k : Hasher) (c : RspCode) (v : Word) :
    SameOutside (respond { s with hasher := k } c v) (respond { t with hasher := k } c v) := by
  obtain ⟨hinputs, hresponses, -⟩ := hst
  exact ⟨hinputs, by simp [hresponses], rfl, fun _ => rfl⟩

theorem sameOutside_raiseError (c : RspCode) : SameOutside (raiseError s c) (raiseError t c) := by
  obtain ⟨hinputs, hresponses, hcore⟩ := hst
  exact ⟨hinputs, by simp [hresponses], hcore⟩

/-- The check of `inited` stands before every use of the core, so a command may rely on equal cores. -/
theorem whenInited_alike {x y : Host.Outcome State Fault Refusal} (hxy : s.hasher = t.hasher → Alike x y) :
    Alike (whenInited s x) (whenInited t y) := by
  have ⟨_, _, hinited, hcore⟩ := hst
  cases hi : s.hasher.inited with
  | false =>
    rw [whenInited_false hi, whenInited_false (hinited ▸ hi)]
    exact alike_next (sameOutside_raiseError hst _)
  | true =>
    rw [whenInited_true hi, whenInited_true (hinited ▸ hi)]
    exact hxy (hcore hi)

theorem finish_alike (r : Except Fault Hasher) (c : RspCode) (v : Word) :
    Alike (finish s r c v) (finish t r c v) := by
  cases r with
  | ok k => exact alike_next (sameOutside_respond hst k c v)
  | error f => exact .inr (.inl ⟨f, rfl, rfl⟩)

theorem exec_alike (i : Instr) : Alike (exec i s) (exec i t) := by
  cases i with
  | init seed => exact alike_next (sameOutside_respond hst (initState seed) .ok 0)
  | absorb b =>
    refine whenInited_alike hst fun hcore => ?_
    rw [hcore]
    split
    · exact finish_alike hst _ _ _
    · exact .inr (.inr ⟨_, rfl, rfl⟩)
  | finalize =>
    refine whenInited_alike hst fun hcore => ?_
    rw [hcore]
    cases digest t.hasher with
    | ok d => exact alike_next (sameOutside_respond hst _ _ _)
    | error f => exact .inr (.inl ⟨f, rfl, rfl⟩)

theorem step_alike : Alike (step s) (step t) := by
  have hinputs : t.inputs = s.inputs := hst.1.symm
  have hrest (rest : List HostEvent) : SameOutside { s with inputs := rest } { t with inputs := rest } :=
    ⟨rfl, hst.2⟩
  rcases hin : s.inputs with _ | ⟨w | _, rest⟩ <;> rw [hin] at hinputs
  · rw [step_idle hin, step_idle hinputs]
    exact alike_next hst
  · cases hd : decode w with
    | ok i =>
      rw [step_command hin hd, step_command hinputs hd]
      exact exec_alike (hrest rest) i
    | error e =>
      rw [step_illegal hin hd, step_illegal hinputs hd]
      exact alike_next (sameOutside_raiseError (hrest rest) _)
  · rw [step_hardwareReset hin, step_hardwareReset hinputs]
    exact alike_next ⟨rfl, hst.2.1, by simp, by simp⟩

end

/-! ### Runs -/

theorem run_succ_fault {s : State} {f : Fault} (n : Nat) (h : step s = .fault f) : run (n + 1) s = .fault f := by
  rw [run, h]

theorem run_succ_refused {s : State} {r : Refusal} (n : Nat) (h : step s = .refused r) :
    run (n + 1) s = .refused r := by
  rw [run, h]

theorem run_alike {s t : State} (n : Nat) (hst : SameOutside s t) : Alike (run n s) (run n t) := by
  induction n generalizing s t with
  | zero => exact alike_next hst
  | succ n ih =>
    rcases step_alike hst with ⟨s', t', hs, ht, hst'⟩ | ⟨f, hs, ht⟩ | ⟨r, hs, ht⟩
    · rw [run_succ n hs, run_succ n ht]
      exact ih hst'
    · rw [run_succ_fault n hs, run_succ_fault n ht]
      exact .inr (.inl ⟨f, rfl, rfl⟩)
    · rw [run_succ_refused n hs, run_succ_refused n ht]
      exact .inr (.inr ⟨r, rfl, rfl⟩)

/-- Settles O55: runs are alike, by induction on the steps. -/
theorem unspecifiedValuesReachNoResponse : Obligations.UnspecifiedValuesReachNoResponse := by
  intro n s t hst
  rcases run_alike n hst with ⟨s', t', hs, ht, hst'⟩ | ⟨f, hs, ht⟩ | ⟨r, hs, ht⟩
  · rw [hs, ht]
    exact hst'
  · rw [hs, ht]
  · rw [hs, ht]

end Sys2Proof.Machine
end

section
/-! PROOF. The digest as one expression (43_finalize.md R177, R181): the tail that is read from the carry cell by cell
is the fold of a byte sequence. -/

namespace Sys2Proof.Machine

/-! ### The tail of a byte sequence, word by word (R201) -/

theorem foldTailList_word (acc : Word) {z : List Byte} (hz : 4 ≤ z.length) :
    foldTailList acc z = foldTailList (tailWord acc (wordOfBytes (z.take 4))) (z.drop 4) := by
  match z with
  | b0 :: b1 :: b2 :: b3 :: rest => rfl
  | [] | [_] | [_, _] | [_, _, _] => simp at hz

theorem foldTailList_bytes (acc : Word) {z : List Byte} (hz : z.length < 4) :
    foldTailList acc z = z.foldl (fun acc b => tailByte acc (zext32 b)) acc := by
  match z with
  | b0 :: b1 :: b2 :: b3 :: rest =>
    simp only [List.length_cons] at hz
    omega
  | [] | [_] | [_, _] | [_, _, _] => rfl

/-- The loop over the words, then the loop over the bytes left, as R181 writes them. -/
theorem foldTailList_eq_loops (acc : Word) (z : List Byte) :
    foldTailList acc z = (z.drop (4 * (z.length / 4))).foldl (fun a b => tailByte a (zext32 b))
      ((List.range (z.length / 4)).foldl (fun a j => tailWord a (wordOfBytes ((z.drop (4 * j)).take 4))) acc) := by
  generalize hn : z.length / 4 = n
  induction n generalizing acc z with
  | zero => exact foldTailList_bytes acc (by omega)
  | succ n ih =>
    have hrest : (z.drop 4).length / 4 = n := by
      rw [List.length_drop]
      omega
    rw [foldTailList_word acc (by omega), ih _ _ hrest, List.range_succ_eq_map, List.foldl_cons, List.foldl_map]
    simp only [List.drop_drop, Nat.mul_succ, Nat.add_comm 4, Nat.mul_zero, List.drop_zero]

/-! ### The tail in the carry (R177) -/

section
variable {z : List Byte} (hz : z.length ≤ Config.carryCap)
include hz

theorem foldTailBytes_eq {n tcur : Nat} (hn : tcur + n = z.length) (acc : Word) :
    foldTailBytes (cellsFrom 0 z) n acc tcur =
      .ok ((z.drop tcur).foldl (fun acc b => tailByte acc (zext32 b)) acc) := by
  induction n generalizing tcur acc with
  | zero => rw [List.drop_of_length_le (by omega)]; rfl
  | succ n ih =>
    rw [foldTailBytes, memRead1, fetchCell_cellsFrom (by omega) hz, List.drop_eq_getElem_cons (by omega)]
    exact ih (by omega) _

theorem foldTailCells_eq {n r tcur : Nat} (hn : tcur + 4 * n + r = z.length) (hr : r < 4) (acc : Word) :
    (foldTailWords (cellsFrom 0 z) n acc tcur).bind
        (fun acc => foldTailBytes (cellsFrom 0 z) r acc (tcur + 4 * n)) =
      .ok (foldTailList acc (z.drop tcur)) := by
  induction n generalizing tcur acc with
  | zero =>
    rw [foldTailList_bytes acc (by rw [List.length_drop]; omega)]
    exact foldTailBytes_eq hz (by omega) acc
  | succ n ih =>
    rw [foldTailList_word acc (by rw [List.length_drop]; omega), List.drop_drop, foldTailWords, memRead4,
      fetchCells_cellsFrom (by omega) hz, show tcur + 4 * (n + 1) = tcur + 4 + 4 * n by omega]
    exact ih (by omega) _

end

/-- Under the invariant the digest folds the valid carry bytes. -/
theorem digest_eq {h : Hasher} (hw : h.wf) (hi : h.inited = true) :
    digest h = .ok (avalanche (foldTailList (addLen (startValue h) h.totalLength) (carryBytes h))) := by
  have hlen := carryBytes_length hw hi
  have hcap : (carryBytes h).length ≤ Config.carryCap := hlen ▸ (carryLen_lt hw hi).le
  have htail := foldTailCells_eq hcap (n := h.carryLen.toNat / 4) (r := h.carryLen.toNat % 4) (tcur := 0)
    (by omega) (by omega) (addLen (startValue h) h.totalLength)
  rw [← carry_eq_cellsFrom hw hi, Nat.zero_add, List.drop_zero] at htail
  have hfold : foldTail h (addLen (startValue h) h.totalLength) = .ok _ := htail
  rw [digest, hfold]
  rfl

/-! ### FINALIZE (R181) -/

theorem addLen_eq (acc : Word) (n : BitVec 64) : addLen acc n = acc + BitVec.ofNat 32 (n.toNat % 2 ^ 32) := by
  refine BitVec.eq_of_toNat_eq ?_
  rw [addLen_toNat, BitVec.toNat_add, BitVec.toNat_ofNat, Nat.mod_mod]

/-- Settles O27: the digest by `digest_eq`, its tail written as the two loops. -/
theorem finalizeDigestAsOneExpression : Obligations.FinalizeDigestAsOneExpression := by
  intro s hw hi c t a0 a1 a2 a3
  have hcarry : s.hasher.carryLen.toNat = t := (hw.2 hi).1
  have hlen : c.length = t := (carryBytes_length hw hi).trans hcarry
  have hdigest := digest_eq hw hi
  rw [foldTailList_eq_loops, show (carryBytes s.hasher).length = t from hlen, addLen_eq] at hdigest
  exact ⟨hcarry, hlen, _, exec_finalize_ok hi hdigest⟩

end Sys2Proof.Machine
end

section
/-! PROOF. The stream absorbed so far (10_state.md R30, R31; 44_oneshot_and_laws.md R201): the core holds the state
after a stream, each command carries it to the state after another, and FINALIZE answers `XXH32` of it. -/

namespace Sys2Proof.Machine

/-! ### The state after a stream -/

/-- The state after a stream is what `Absorb` of the whole stream leaves after INIT. -/
theorem streamState_eq_absorbed (seed : Word) (d : List Byte) :
    streamState seed d = absorbed (initState seed) d := by
  have hlen : addLength (initState seed) d.length =
      { initState seed with totalLength := BitVec.ofNat 64 d.length } := by
    simp [addLength]
  rw [absorbed, hlen, carryBytes_initState, List.nil_append]
  rfl

theorem initState_eq_streamState (seed : Word) : initState seed = streamState seed [] := by rfl

theorem absorbed_streamState (seed : Word) (d b : List Byte) :
    absorbed (streamState seed d) b = streamState seed (d ++ b) := by
  rw [streamState_eq_absorbed, absorbed_absorbed, ← streamState_eq_absorbed]

theorem streamState_wf (seed : Word) {d : List Byte} (hd : d.length < 2 ^ 64) : (streamState seed d).wf := by
  rw [streamState_eq_absorbed]
  exact absorbed_wf (initState_wf seed) rfl (by simpa using hd)

theorem streamState_totalLength (seed : Word) {d : List Byte} (hd : d.length < 2 ^ 64) :
    (streamState seed d).totalLength.toNat = d.length := by
  rw [streamState, BitVec.toNat_ofNat, Nat.mod_eq_of_lt hd]

@[simp] theorem carryBytes_streamState (seed : Word) (d : List Byte) :
    carryBytes (streamState seed d) = d.drop (16 * (d.length / 16)) :=
  carryBytes_of_cellsFrom rfl

/-- Settles O47: both sides are what `Absorb` leaves after INIT. -/
theorem absorbExtendsTheStream : Obligations.AbsorbExtendsTheStream := by
  refine ⟨initState_eq_streamState, fun seed d b hlen => ?_⟩
  have hw := streamState_wf seed (d := d) (by omega)
  exact ⟨hw, by rw [absorb_eq_absorbed hw rfl, absorbed_streamState]⟩

/-! ### Its digest (R201, R206) -/

/-- The lanes of a seed, as R201 writes them. -/
theorem initLanes_eq (seed : Word) : initLanes seed =
    { lane1 := add32 seed 0x24234428#32, lane2 := add32 seed 0x85EBCA77#32, lane3 := seed,
      lane4 := add32 seed 0x61C8864F#32 } := by
  simp only [add32_eq, ← initLanes_lane1_offset, ← initLanes_lane2, ← initLanes_lane4_offset]
  rfl

theorem digest_streamState (seed : Word) {d : List Byte} (hd : d.length < 2 ^ 64) :
    digest (streamState seed d) = .ok (xxh32 seed d) := by
  have hlen : (BitVec.ofNat 64 d.length).extractLsb' 0 32 = BitVec.ofNat 32 d.length := by
    refine BitVec.eq_of_toNat_eq ?_
    simp
  have hstart : startValue (streamState seed d) = if 16 ≤ d.length
      then converge (mixBlocks (d.length / 16) d (initLanes seed)) else add32 seed Config.prime5 := by
    rw [startValue, streamState_totalLength seed hd]
    rfl
  rw [digest_eq (streamState_wf seed hd) rfl, carryBytes_streamState, hstart, addLen, streamState, hlen, xxh32,
    ← initLanes_eq]

/-- Settles O48: the digest folds the rest of the stream from the start value its whole blocks give. -/
theorem streamDigestIsXxh32 : Obligations.StreamDigestIsXxh32 :=
  fun seed _ => digest_streamState seed

theorem xxh32_nil (seed : Word) : xxh32 seed [] = avalanche (seed + 0x165667B1#32) := by
  have hstart : add32 (add32 seed Config.prime5) 0 = seed + 0x165667B1#32 := by
    rw [add32_zero, add32_eq, Config.prime5]
  rw [← hstart]
  rfl

/-- Settles O29: the first FINALIZE leaves the state after the empty stream, and the second its digest. -/
theorem secondFinalizeAnswersTheEmptyDigest : Obligations.SecondFinalizeAnswersTheEmptyDigest := by
  intro s hw hi
  obtain ⟨d, hd⟩ := digest_ok hw hi
  have hempty := digest_streamState s.hasher.seed (d := []) (by decide)
  rw [xxh32_nil, ← initState_eq_streamState] at hempty
  refine ⟨_, exec_finalize_ok hi hd, ?_⟩
  exact exec_finalize_ok (s := respond { s with hasher := initState s.hasher.seed } .digest d) rfl hempty

/-! ### Every step tracks it -/

section
variable {s t : State} {seed : Word} {d : List Byte} (hd : d.length < 2 ^ 64)
  (hs : s.hasher = streamState seed d)
include hd hs

theorem exec_absorb_stream {b : List Byte} (h : exec (.absorb b) s = .next t) :
    (d ++ b).length < 2 ^ 64 ∧ t.hasher = streamState seed (d ++ b) := by
  have hw : s.Inv := by
    rw [State.Inv, hs]
    exact streamState_wf seed hd
  obtain ⟨hb, rfl⟩ := exec_absorb_next hw (hs ▸ rfl) h
  rw [hs, streamState_totalLength seed hd] at hb
  exact ⟨List.length_append ▸ hb, by rw [respond_hasher, hs, absorbed_streamState]⟩

theorem exec_finalize_stream (h : exec .finalize s = .next t) :
    t.hasher = streamState seed [] ∧ t.responses = s.responses ++ [0b01#2 ++ xxh32 seed d] := by
  rw [exec_finalize_ok (hs ▸ rfl) (hs ▸ digest_streamState seed hd), Host.Outcome.next.injEq] at h
  subst h
  rw [respond_hasher, hs]
  exact ⟨rfl, rfl⟩

end

/-- Settles O49: the step of each event, and what each command makes of the stream. -/
theorem stepTracksTheStream : Obligations.StepTracksTheStream := by
  intro s t seed d hd hs h
  refine ⟨fun hin => ?_, fun rest hin => ?_, fun w rest hin => ⟨fun e hdec => ?_, fun b hdec => ?_,
    fun seed' hdec => step_init_hasher h hin hdec, fun hdec => ?_⟩⟩
  · rw [step_idle hin, Host.Outcome.next.injEq] at h
    exact h ▸ hs
  · rw [step_hardwareReset hin, Host.Outcome.next.injEq] at h
    rw [← h, hardwareReset_hasher, afterReset_inited]
  · rw [step_illegal hin hdec, Host.Outcome.next.injEq] at h
    rw [← h, raiseError_hasher, hs]
  · rw [step_command hin hdec] at h
    exact exec_absorb_stream (s := { s with inputs := rest }) hd hs h
  · rw [step_command hin hdec] at h
    exact exec_finalize_stream (s := { s with inputs := rest }) hd hs h

end Sys2Proof.Machine
end

section
/-! PROOF. What `Absorb` leaves, element by element (42_absorb.md R143 to R149, R153): the lanes, the fill index and
every cell of the carry. -/

namespace Sys2Proof.Machine

/-! ### The elements of the closed form (R148) -/

/-- The loop over the blocks of a sequence, each named by its place (R145). -/
theorem mixBlocks_eq_foldl (q : Nat) (z : List Byte) (l : Lanes) :
    mixBlocks q z l = (List.range q).foldl (fun l i => blockMix ((z.drop (16 * i)).take 16) l) l := by
  induction q with
  | zero => rfl
  | succ q ih => rw [mixBlocks_add, ih, List.range_succ, List.foldl_append]; rfl

theorem absorbed_lanes (h : Hasher) (b : List Byte) : (absorbed h b).lanes =
    mixBlocks ((carryBytes h ++ b).length / 16) (carryBytes h ++ b) h.lanes := by rfl

theorem carryBytes_absorbed (h : Hasher) (b : List Byte) : carryBytes (absorbed h b) =
    (carryBytes h ++ b).drop (16 * ((carryBytes h ++ b).length / 16)) :=
  carryBytes_settled _ _

theorem absorbed_carryLen (h : Hasher) (b : List Byte) :
    (absorbed h b).carryLen.toNat = (carryBytes h ++ b).length % 16 := by
  have hfill : (absorbed h b).carryLen = BitVec.ofNat 5 ((carryBytes h ++ b).length % 16) := rfl
  rw [hfill, BitVec.toNat_ofNat]
  omega

/-- Cell `a` holds the byte `a` places behind the last whole block, if there is one. -/
theorem readCell_absorbed (h : Hasher) (b : List Byte) (a : Nat) : readCell (absorbed h b).carry a =
    (carryBytes h ++ b)[16 * ((carryBytes h ++ b).length / 16) + a]? := by
  have hread := readCell_cellsFrom 0 a ((carryBytes h ++ b).drop (16 * ((carryBytes h ++ b).length / 16)))
  rw [Nat.zero_add, List.getElem?_drop] at hread
  exact hread

/-- Settles O21: `Absorb` is its closed form, whose elements are read off. -/
theorem absorbClosedForm : Obligations.AbsorbClosedForm := by
  intro h b hw hi hb z
  exact ⟨absorbed h b, absorb_eq_absorbed hw hi b, absorbed_wf hw hi hb, hi, rfl, absorbed_totalLength hb,
    mixBlocks_eq_foldl _ _ _, carryBytes_absorbed h b, absorbed_carryLen h b⟩

/-- Settles O22: the closed form of a chunk after a chunk is that of their concatenation. -/
theorem streamingEquivalence : Obligations.StreamingEquivalence := by
  intro h a b hw hi hlen
  have hw' : (absorbed h a).wf := absorbed_wf hw hi (by omega)
  exact ⟨absorbed h a, absorbed h (a ++ b), absorb_eq_absorbed hw hi a,
    absorbed_absorbed h a b ▸ absorb_eq_absorbed hw' hi b, absorb_eq_absorbed hw hi (a ++ b)⟩

/-! ### Under the invariant, by the number of bytes (R149) -/

section
variable {h : Hasher} (hw : h.wf) (hi : h.inited = true)
include hw hi

theorem carried_length (b : List Byte) : (carryBytes h ++ b).length = h.carryLen.toNat + b.length := by
  rw [List.length_append, carryBytes_length hw hi]

theorem readCell_carry (a : Nat) : readCell h.carry a = (carryBytes h)[a]? := by
  have hread := readCell_cellsFrom 0 a (carryBytes h)
  rwa [Nat.zero_add, ← carry_eq_cellsFrom hw hi] at hread

section
variable {b : List Byte} (hb : h.carryLen.toNat + b.length < 16)
include hb

theorem absorbed_buffered : (absorbed h b).lanes = h.lanes ∧
    (absorbed h b).carryLen.toNat = h.carryLen.toNat + b.length ∧ carryBytes (absorbed h b) = carryBytes h ++ b := by
  have hlen := carried_length hw hi b
  refine ⟨?_, ?_, ?_⟩
  · rw [absorbed_lanes, Nat.div_eq_of_lt (hlen ▸ hb), mixBlocks]
  · rw [absorbed_carryLen, hlen, Nat.mod_eq_of_lt hb]
  · rw [carryBytes_absorbed, Nat.div_eq_of_lt (hlen ▸ hb), Nat.mul_zero, List.drop_zero]

theorem readCell_absorbed_buffered (a : Nat) : readCell (absorbed h b).carry a = (carryBytes h ++ b)[a]? := by
  rw [readCell_absorbed, Nat.div_eq_of_lt (carried_length hw hi b ▸ hb), Nat.mul_zero, Nat.zero_add]

/-- The bytes go to the fill index and up (R143). -/
theorem readCell_absorbed_stored (j : Nat) :
    readCell (absorbed h b).carry (h.carryLen.toNat + j) = b[j]? := by
  rw [readCell_absorbed_buffered hw hi hb, ← carryBytes_length hw hi,
    List.getElem?_append_right (Nat.le_add_right _ _), Nat.add_sub_cancel_left]

theorem readCell_absorbed_outside {a : Nat} (ha : a < h.carryLen.toNat ∨ h.carryLen.toNat + b.length ≤ a) :
    readCell (absorbed h b).carry a = readCell h.carry a := by
  rw [readCell_absorbed_buffered hw hi hb, readCell_carry hw hi]
  rcases ha with ha | ha
  · exact List.getElem?_append_left (carryBytes_length hw hi ▸ ha)
  · rw [List.getElem?_eq_none (carried_length hw hi b ▸ ha),
      List.getElem?_eq_none (by rw [carryBytes_length hw hi]; omega)]

end

/-- A beat that reaches the sixteenth byte mixes one block (R144). -/
theorem absorbed_oneBlock {b : List Byte} (hb : 16 ≤ h.carryLen.toNat + b.length) (hn : b.length ≤ 16) :
    (absorbed h b).lanes = blockMix (carryBytes h ++ b.take (16 - h.carryLen.toNat)) h.lanes ∧
      (absorbed h b).carryLen.toNat = h.carryLen.toNat + b.length - 16 ∧
      carryBytes (absorbed h b) = b.drop (16 - h.carryLen.toNat) := by
  have hlen := carried_length hw hi b
  have hc := carryBytes_length hw hi
  have hlt := carryLen_lt hw hi
  have hq : (carryBytes h ++ b).length / 16 = 1 := by omega
  refine ⟨?_, ?_, ?_⟩
  · rw [absorbed_lanes, hq, mixBlocks, mixBlocks, Config.blockBytes, List.take_append,
      List.take_of_length_le (by omega), hc]
  · rw [absorbed_carryLen]
    omega
  · rw [carryBytes_absorbed, hq, Nat.mul_one, List.drop_append, List.drop_of_length_le (by omega), hc,
      List.nil_append]

/-- What is left behind the last block is the end of the chunk, from index 0 (R146). -/
theorem readCell_absorbed_kept {b : List Byte} (hb : 16 ≤ h.carryLen.toNat + b.length) (j : Nat) :
    readCell (absorbed h b).carry j = b[b.length - (absorbed h b).carryLen.toNat + j]? := by
  have hlen := carried_length hw hi b
  have hc := carryBytes_length hw hi
  have hlt := carryLen_lt hw hi
  rw [readCell_absorbed, List.getElem?_append_right (by omega), absorbed_carryLen]
  congr 1
  omega

end

theorem readCell_absorbed_stale (h : Hasher) (b : List Byte) {a : Nat} (ha : (absorbed h b).carryLen.toNat ≤ a) :
    readCell (absorbed h b).carry a = none := by
  rw [absorbed_carryLen] at ha
  rw [readCell_absorbed]
  exact List.getElem?_eq_none (by omega)

/-- Settles O20: an empty beat leaves the core, a short one is buffered, and the other two complete one block. -/
theorem absorbBeatCases : Obligations.AbsorbBeatCases := by
  intro s b hw hi hn hb c n
  have hlt : c < 16 := carryLen_lt hw hi
  refine ⟨absorbed s.hasher b, exec_absorb_fits hw hi hb, hi, rfl, absorbed_totalLength hb, fun h0 => ?_,
    fun _ hshort => absorbed_buffered hw hi (Nat.lt_succ_of_le hshort), fun _ hlong => absorbed_oneBlock hw hi hlong hn,
    fun h0 h16 => ?_, by omega⟩
  · rw [List.length_eq_zero_iff.1 h0, absorbed_nil hw hi]
    exact ⟨rfl, rfl, rfl⟩
  · obtain ⟨hlanes, hfill, hcarry⟩ := absorbed_oneBlock hw hi (b := b) (by omega) hn
    have hempty : carryBytes s.hasher = [] := List.length_eq_zero_iff.1 ((carryBytes_length hw hi).trans h0)
    rw [show s.hasher.carryLen.toNat = 0 from h0] at hlanes hfill hcarry
    rw [hempty, List.take_of_length_le (by omega), List.nil_append] at hlanes
    rw [List.drop_of_length_le (by omega)] at hcarry
    exact ⟨hlanes, by omega, hcarry⟩

/-- Settles O23: the cells of a buffered chunk, and those of a chunk that completes a block. -/
theorem absorbStoresAtTheFillIndex : Obligations.AbsorbStoresAtTheFillIndex := by
  intro s t b hw hi hx c
  obtain ⟨-, rfl⟩ := exec_absorb_next hw hi hx
  rw [respond_hasher]
  refine ⟨fun hshort => ?_, fun hlong => ⟨?_, fun j _ => readCell_absorbed_kept hw hi hlong j,
    fun a => readCell_absorbed_stale s.hasher b⟩⟩
  · obtain ⟨hlanes, hfill, -⟩ := absorbed_buffered hw hi hshort
    exact ⟨hlanes, hfill, fun a => readCell_absorbed_outside hw hi hshort,
      fun j _ => readCell_absorbed_stored hw hi hshort j⟩
  · exact (absorbed_carryLen s.hasher b).trans (congrArg (· % 16) (carried_length hw hi b))

end Sys2Proof.Machine
end

section
/-! PROOF. The operations of the datapath lose nothing (40_arith32.md R111 to R121; 42_absorb.md R150; 43_finalize.md
R178): each is a bijection of the words, and so is what they compose to. -/

namespace Sys2Proof.Machine

/-! ### The ring of the words (R111, R118) -/

theorem sub32_zero_add (a : Word) : add32 a (sub32 0 a) = 0 := by
  rw [add32_eq, sub32_eq]
  exact add_sub_cancel a 0

theorem sub32_add_cancel (a b : Word) : add32 (sub32 a b) b = a := by
  rw [add32_eq, sub32_eq, BitVec.sub_add_cancel]

theorem mul32_comm (a b : Word) : mul32 a b = mul32 b a := by
  rw [mul32_eq, mul32_eq, BitVec.mul_comm]

theorem mul32_assoc (a b c : Word) : mul32 (mul32 a b) c = mul32 a (mul32 b c) := by
  simp only [mul32_eq, BitVec.mul_assoc]

theorem mul32_add32 (a b c : Word) : mul32 a (add32 b c) = add32 (mul32 a b) (mul32 a c) := by
  simp only [mul32_eq, add32_eq, BitVec.mul_add]

/-! ### Bijections -/

/-- There are finitely many words, so an operation that loses nothing reaches every word. -/
theorem bijective_of_injective {f : Word → Word} (hf : Function.Injective f) : Function.Bijective f :=
  (Finite.injective_iff_bijective (α := Word)).1 hf

/-- An odd number has an inverse modulo 2^32 (R112). -/
theorem exists_mul32_eq_one {b : Word} (hb : b.toNat % 2 = 1) : ∃ c, mul32 b c = 1 := by
  have hcop : Nat.Coprime b.toNat (2 ^ 32) := (Nat.coprime_two_right.2 (Nat.odd_iff.2 hb)).pow_right 32
  obtain ⟨m, -, hm⟩ := Nat.exists_mul_mod_eq_one_of_coprime hcop (by decide)
  refine ⟨BitVec.ofNat 32 m, BitVec.eq_of_toNat_eq ?_⟩
  rw [mul32_toNat, BitVec.toNat_ofNat, Nat.mul_mod_mod, hm]
  rfl

theorem mul32_bijective {b : Word} (hb : b.toNat % 2 = 1) : Function.Bijective (fun x : Word => mul32 x b) := by
  obtain ⟨c, hc⟩ := exists_mul32_eq_one hb
  refine Function.bijective_iff_has_inverse.2 ⟨fun x => mul32 x c, fun x => ?_, fun x => ?_⟩
  · simp only [mul32_assoc, hc, mul32_one]
  · simp only [mul32_assoc, mul32_comm c b, hc, mul32_one]

theorem add32_left_bijective (b : Word) : Function.Bijective (fun x : Word => add32 x b) :=
  bijective_of_injective fun x y h => by simpa [add32_eq] using h

theorem add32_right_bijective (a : Word) : Function.Bijective (fun x : Word => add32 a x) :=
  bijective_of_injective fun x y h => by simpa [add32_eq] using h

theorem rotl32_bijective {r : Nat} (hr : r ≤ 31) : Function.Bijective (fun x : Word => rotl32 x r) := by
  refine bijective_of_injective fun x y h => BitVec.eq_of_getLsbD_eq fun i hi => ?_
  have hbit := congrArg (fun z => BitVec.getLsbD z ((i + r) % 32)) h
  simpa only [rotl32_getLsbD_add_mod _ hr hi] using hbit

/-- Where two words agree after `x ^ (x >> n)`, their difference is its own shift, and so is 0. -/
theorem xorShift_bijective {n : Nat} (hn : 1 ≤ n) : Function.Bijective (fun x : Word => xor32 x (shr32 x n)) := by
  refine bijective_of_injective fun x y h => ?_
  have hbits : ∀ p q p' q' : Bool, (p ^^ p') = (q ^^ q') → (p ^^ q) = (p' ^^ q') := by decide
  have hdiff : x ^^^ y = (x ^^^ y) >>> n := by
    refine BitVec.eq_of_getLsbD_eq fun i _ => ?_
    have hi := congrArg (fun z => BitVec.getLsbD z i) h
    simp only [xor32_getLsbD, shr32_eq] at hi
    simpa only [BitVec.ushiftRight_xor_distrib, BitVec.getLsbD_xor] using hbits _ _ _ _ hi
  have hzero : (x ^^^ y).toNat = 0 := by
    have hnat := congrArg BitVec.toNat hdiff
    rw [BitVec.toNat_ushiftRight, Nat.shiftRight_eq_div_pow] at hnat
    by_contra hpos
    exact absurd hnat (Nat.div_lt_self (Nat.pos_of_ne_zero hpos) (Nat.one_lt_two_pow (by omega))).ne'
  exact BitVec.xor_eq_zero_iff.1 (BitVec.eq_of_toNat_eq hzero)

/-- Settles O35: the ring laws, and an inverse for every odd factor. -/
theorem wordsAreARingAndOddFactorsInvertible : Obligations.WordsAreARingAndOddFactorsInvertible := by
  have hsub : ∀ a : Word, sub32 a Config.prime1 = add32 a 0x61C8864F#32 := fun a => by
    rw [add32_eq, sub32_eq, BitVec.sub_eq_add_neg]
    rfl
  have hodd : [Config.prime1, Config.prime2, Config.prime3, Config.prime4, Config.prime5].all
      (fun p => p.toNat % 2 == 1) = true := by decide
  refine ⟨hsub, fun a b c => ?_, fun b => mul32_bijective,
    fun p hp => mul32_bijective (beq_iff_eq.1 (List.all_eq_true.1 hodd p hp)), by decide⟩
  exact ⟨add32_comm a b, add32_assoc a b c, add32_zero a, sub32_zero_add a, sub32_add_cancel a b, mul32_comm a b,
    mul32_assoc a b c, mul32_one a, mul32_add32 a b c⟩

/-! ### ROUND (R150) -/

/-- The rotation and the product that end ROUND. -/
theorem roundEnd_bijective : Function.Bijective (fun x : Word => mul32 (rotl32 x 13) Config.prime1) :=
  (mul32_bijective (by decide)).comp (rotl32_bijective (by decide))

theorem roundLane_lane_bijective (w : Word) : Function.Bijective (fun acc : Word => roundLane acc w) :=
  roundEnd_bijective.comp (add32_left_bijective (mul32 w Config.prime2))

theorem roundLane_word_bijective (acc : Word) : Function.Bijective (fun w : Word => roundLane acc w) :=
  roundEnd_bijective.comp ((add32_right_bijective acc).comp (mul32_bijective (b := Config.prime2) (by decide)))

/-- Settles O24: the formula, the corner cases, and the bijections that make up ROUND. -/
theorem roundFormulaAndBijections : Obligations.RoundFormulaAndBijections :=
  ⟨roundLane_eq, by decide, roundLane_zero, fun _ => roundLane_zero_ne, roundLane_lane_bijective,
    roundLane_word_bijective, by decide⟩

/-! ### AVALANCHE (R178, R206) -/

theorem avalanche_bijective : Function.Bijective avalanche :=
  (xorShift_bijective (n := 16) (by decide)).comp <|
    (mul32_bijective (b := Config.prime3) (by decide)).comp <|
      (xorShift_bijective (n := 13) (by decide)).comp <|
        (mul32_bijective (b := Config.prime2) (by decide)).comp (xorShift_bijective (n := 15) (by decide))

/-- Settles O32: the five operations in order, each a bijection. -/
theorem avalancheFormulaAndBijection : Obligations.AvalancheFormulaAndBijection := by
  refine ⟨?_, by decide, avalanche_bijective, by decide⟩
  rintro a0 _ _ _ _ rfl rfl rfl rfl
  simp only [avalanche, xor32_eq, shr32_eq, mul32_eq, Config.prime2, Config.prime3]

/-- Settles O33: the digest of the empty stream is the avalanche of a sum. -/
theorem emptyDigestIsABijectionOfTheSeed : Obligations.EmptyDigestIsABijectionOfTheSeed := by
  refine ⟨xxh32_nil, ?_⟩
  simp only [xxh32_nil, ← add32_eq]
  exact avalanche_bijective.comp (add32_left_bijective _)

end Sys2Proof.Machine
end

section
/-! PROOF. A byte of a block reaches one lane (20_memory.md R65, 42_absorb.md R152): it lies in one of the four words,
and ROUND loses nothing of its word. -/

namespace Sys2Proof.Machine

theorem roundLane_word_inj {acc w w' : Word} : roundLane acc w = roundLane acc w' ↔ w = w' :=
  (roundLane_word_bijective acc).injective.eq_iff

section
variable {blk : List Byte} {k i : Nat} {b : Byte} (hlen : blk.length = 16) (hk : k < 16) (hb : blk[k]? ≠ some b)
  (hi : i < 4)
include hlen hk hb hi

/-- Word `i` of the block sees a change of byte `k` exactly when it holds that byte. -/
theorem blockWord_set_eq_iff : blockWord blk i = blockWord (blk.set k b) i ↔ k / 4 ≠ i := by
  have hwindow (z : List Byte) (j : Nat) (hj : j < 4) : ((z.drop (4 * i)).take 4)[j]? = z[4 * i + j]? := by
    rw [List.getElem?_take_of_lt hj, List.getElem?_drop]
  have hfour (z : List Byte) (hz : z.length = 16) : ((z.drop (4 * i)).take 4).length = 4 := by
    rw [List.length_take, List.length_drop]
    omega
  constructor
  · rintro heq rfl
    have hlists := wordOfBytes_inj (hfour blk hlen) (hfour (blk.set k b) (by rwa [List.length_set])) heq
    have hbyte := congrArg (fun z => z[k % 4]?) hlists
    simp only [hwindow _ _ (Nat.mod_lt k (by decide)), Nat.div_add_mod] at hbyte
    rw [List.getElem?_set_self (hlen ▸ hk)] at hbyte
    exact hb hbyte
  · intro hne
    rw [blockWord, blockWord, List.drop_set]
    split
    · rfl
    · rw [List.take_set_of_le (by omega)]

theorem roundLane_blockWord_set_eq_iff (acc : Word) :
    roundLane acc (blockWord blk i) = roundLane acc (blockWord (blk.set k b) i) ↔ k / 4 ≠ i :=
  roundLane_word_inj.trans (blockWord_set_eq_iff hlen hk hb hi)

end

/-- Settles O26: lane by lane, the word it receives. -/
theorem blockByteReachesItsLaneOnly : Obligations.BlockByteReachesItsLaneOnly := by
  intro blk l k b hlen hk hb m m'
  have hlane {i : Nat} (hi : i < 4) := roundLane_blockWord_set_eq_iff hlen hk hb hi
  exact ⟨hlane (by decide) _, hlane (by decide) _, hlane (by decide) _, hlane (by decide) _⟩

end Sys2Proof.Machine
end

section
/-! PROOF. INIT forgets (41_init.md R130, R132, R133). -/

namespace Sys2Proof.Machine

/-- Settles O16: both cores, and the core after the first INIT, come to hold `InitState` of the seed. -/
theorem initForgetsTheOldComputation : Obligations.InitForgetsTheOldComputation := fun seed s s' =>
  ⟨initState seed, exec_init seed s, exec_init seed s', exec_init seed { s with hasher := initState seed }⟩

/-- Settles O17: the lanes are the seed plus four different offsets. -/
theorem initialLanesAreDifferent : Obligations.InitialLanesAreDifferent := by
  intro seed
  have hlane3 : (initLanes seed).lane3 = seed + 0#32 := (BitVec.add_zero seed).symm
  have hoffset {c d : Word} (hne : c ≠ d) : seed + c ≠ seed + d := fun h => hne (add_left_cancel h)
  rw [initLanes_lane1_offset, initLanes_lane2, hlane3, initLanes_lane4_offset]
  exact ⟨hoffset (by decide), hoffset (by decide), hoffset (by decide), hoffset (by decide), hoffset (by decide),
    hoffset (by decide)⟩

end Sys2Proof.Machine
end

section
/-! PROOF. The step by its event (20_memory.md R60, 30_encoding.md R81, R89 to R91; 70_reset_and_hazards.md R250): which
command runs, and what is answered. -/

namespace Sys2Proof.Machine

/-! ### Which command runs -/

theorem decode_of_decodeTableWord {nbits w : Nat} {i : Instr} (h : decodeTableWord nbits w = some i) :
    decode (tableWord nbits w) = .ok i := by
  cases hd : decode (tableWord nbits w) with
  | ok j =>
    rw [decodeTableWord, hd] at h
    exact congrArg Except.ok (Option.some.inj h)
  | error e =>
    rw [decodeTableWord, hd] at h
    cases h

/-- Settles O8: `step_command`, for the word itself, for a canonical word and for a word put at the head. -/
theorem stepRunsTheDecodedCommand : Obligations.StepRunsTheDecodedCommand := fun s _ =>
  ⟨fun _ _ => step_command, fun _ hw hin => step_command hin (decode_encode hw),
    fun nbits w _ h => step_command (s := s.withFetchWord nbits w) rfl (decode_of_decodeTableWord h)⟩

/-- Settles O11: the step with nothing presented. -/
theorem idleStepChangesNothing : Obligations.IdleStepChangesNothing :=
  fun _ => step_idle

/-! ### The phases (R32) -/

theorem phase_eq_uninit_iff (h : Hasher) : phase h = .uninit ↔ h.inited = false := by
  unfold phase
  split_ifs <;> simp_all

theorem phase_eq_empty_iff (h : Hasher) : phase h = .empty ↔ h.inited = true ∧ h.totalLength.toNat = 0 := by
  unfold phase
  split_ifs <;> simp_all

theorem phase_eq_short_iff (h : Hasher) :
    phase h = .short ↔ h.inited = true ∧ h.totalLength.toNat ≠ 0 ∧ h.totalLength.toNat < 16 := by
  unfold phase
  split_ifs <;> simp_all

theorem phase_eq_long_iff (h : Hasher) : phase h = .long ↔ h.inited = true ∧ 16 ≤ h.totalLength.toNat := by
  unfold phase
  split_ifs <;> simp_all

theorem phase_initState (seed : Word) : phase (initState seed) = .empty :=
  (phase_eq_empty_iff _).2 ⟨rfl, rfl⟩

theorem phase_afterReset (k : Nat) : phase (Hasher.afterReset k) = .uninit :=
  (phase_eq_uninit_iff _).2 rfl

/-- Settles O12: the core after a hardware reset. -/
theorem hardwareResetEntersUninit : Obligations.HardwareResetEntersUninit := fun s rest hin =>
  ⟨hardwareReset { s with inputs := rest }, step_hardwareReset hin, rfl, phase_afterReset _, rfl, rfl⟩

/-! ### The responses (R90, R91) -/

@[simp] theorem responseWord_code (c : RspCode) (v : Word) : (responseWord c v).extractLsb' 32 2 = rspBits c :=
  BitVec.extractLsb'_append_eq_left

@[simp] theorem responseWord_value (c : RspCode) (v : Word) : (responseWord c v).extractLsb' 0 32 = v :=
  BitVec.extractLsb'_append_eq_right

/-- Settles O13: the frame of a command, and of the events that are none. -/
theorem oneResponsePerCommand : Obligations.OneResponsePerCommand := by
  intro s t h
  refine ⟨fun hin => ?_, fun rest hin => ?_, fun w rest hin => ?_⟩
  · rw [step_idle hin, Host.Outcome.next.injEq] at h
    rw [h]
  · rw [step_hardwareReset hin, Host.Outcome.next.injEq] at h
    subst h
    exact ⟨rfl, rfl⟩
  · cases hd : decode w with
    | ok i =>
      rw [step_command hin hd] at h
      obtain ⟨hinputs, -, hresponse⟩ := exec_next_frame h
      exact ⟨hinputs, hresponse⟩
    | error e =>
      rw [step_illegal hin hd, Host.Outcome.next.injEq] at h
      subst h
      exact ⟨rfl, _, rfl⟩

/-- Settles O14: the word's reading, and of a legal one each command with and without `inited`. -/
theorem responseCodesFollowTheTable : Obligations.ResponseCodesFollowTheTable := by
  intro s t w rest hin h
  cases hd : decode w with
  | error e =>
    rw [step_illegal hin hd, Host.Outcome.next.injEq] at h
    subst h
    exact ⟨_, rfl, by simp [rspBits]⟩
  | ok i =>
    rw [step_command hin hd] at h
    cases i with
    | init seed =>
      rw [exec_init, Host.Outcome.next.injEq] at h
      subst h
      exact ⟨_, rfl, by simp [rspBits]⟩
    | absorb b =>
      rcases execAbsorb_next h with ⟨hi, rfl⟩ | ⟨hi, -, k, -, rfl⟩
      · exact ⟨_, rfl, by simp_all [rspBits]⟩
      · exact ⟨_, rfl, by simp_all [rspBits]⟩
    | finalize =>
      rcases execFinalize_next h with ⟨hi, rfl⟩ | ⟨hi, d, hdigest, rfl⟩
      · exact ⟨_, rfl, by simp_all [rspBits]⟩
      · exact ⟨_, rfl, by simp_all [rspBits]⟩

/-! ### Every command is answered (R220, R269) -/

/-- Settles O43: INIT leaves `InitState` of its operand, and the other events keep the seed. -/
theorem onlyInitWritesTheSeed : Obligations.OnlyInitWritesTheSeed := by
  refine fun s t h => ⟨fun w rest seed hin hd => ?_, fun hreset hinit => ?_⟩
  · rw [step_init_hasher h hin hd, initState_seed]
  · exact (step_keeps_inited_seed h hreset hinit).2

theorem exec_answers {s : State} (hw : s.Inv) (i : Instr) :
    (∃ t, exec i s = .next t) ∨
    (exec i s = .refused .lengthCounterOverflow ∧ s.hasher.inited = true ∧
      ∃ b, i = .absorb b ∧ 2 ^ 64 ≤ s.hasher.totalLength.toNat + b.length) := by
  cases i with
  | init seed => exact .inl ⟨_, exec_init seed s⟩
  | absorb b =>
    cases hi : s.hasher.inited with
    | false => exact .inl ⟨_, exec_uninited (by simp) hi⟩
    | true =>
      rcases Nat.lt_or_ge (s.hasher.totalLength.toNat + b.length) (2 ^ 64) with hb | hb
      · exact .inl ⟨_, exec_absorb_fits hw hi hb⟩
      · exact .inr ⟨exec_absorb_refused hi hb, rfl, b, rfl, hb⟩
  | finalize =>
    cases hi : s.hasher.inited with
    | false => exact .inl ⟨_, exec_uninited (by simp) hi⟩
    | true =>
      obtain ⟨d, hd⟩ := digest_ok hw hi
      exact .inl ⟨_, exec_finalize_ok hi hd⟩

/-- Settles O40: the events, and for a legal word `exec_answers`. -/
theorem everyCommandIsAnswered : Obligations.EveryCommandIsAnswered := by
  intro s hw
  rcases hin : s.inputs with _ | ⟨w | _, rest⟩
  · exact .inl ⟨s, step_idle hin⟩
  · cases hd : decode w with
    | error e => exact .inl ⟨_, step_illegal hin hd⟩
    | ok i =>
      rw [step_command hin hd]
      rcases exec_answers (s := { s with inputs := rest }) hw i with hnext | ⟨hrefused, hi, b, rfl, hb⟩
      · exact .inl hnext
      · exact .inr ⟨hrefused, hi, w, rest, b, rfl, hd, hb⟩
  · exact .inl ⟨_, step_hardwareReset hin⟩

/-- Settles O41: an initialised core answers INIT and ABSORB with `OK`, FINALIZE with `DIGEST`. -/
theorem onceInitialisedNoCommandErrs : Obligations.OnceInitialisedNoCommandErrs := by
  intro s w rest i hw hi hin hd hfits
  rw [step_command hin hd]
  cases i with
  | init seed => exact ⟨_, _, exec_init seed _, rfl, rfl, .inl (responseWord_code .ok 0)⟩
  | absorb b =>
    have hx := exec_absorb_fits (s := { s with inputs := rest }) hw hi (hfits b rfl)
    exact ⟨_, _, hx, hi, rfl, .inl (responseWord_code .ok 0)⟩
  | finalize =>
    obtain ⟨d, hdigest⟩ := digest_ok hw hi
    have hx := exec_finalize_ok (s := { s with inputs := rest }) hi hdigest
    exact ⟨_, _, hx, rfl, rfl, .inr (responseWord_code .digest d)⟩

end Sys2Proof.Machine
end

section
/-! PROOF. What a command writes (10_state.md R22, R32; 42_absorb.md R140, R143; 43_finalize.md R170, R179). -/

namespace Sys2Proof.Machine

/-! ### The phase (R32) -/

/-- An ABSORB of an initialised core leaves `inited` 1 and adds the length of its chunk. -/
theorem exec_absorb_totalLength {s t : State} {b : List Byte} (hw : s.Inv) (hi : s.hasher.inited = true)
    (h : exec (.absorb b) s = .next t) :
    t.hasher.inited = true ∧ t.hasher.totalLength.toNat = s.hasher.totalLength.toNat + b.length := by
  obtain ⟨hb, rfl⟩ := exec_absorb_next hw hi h
  exact ⟨hi, absorbed_totalLength hb⟩

theorem exec_finalize_initialised {s t : State} (hi : s.hasher.inited = true) (h : exec .finalize s = .next t) :
    phase t.hasher = .empty ∧ t.hasher.seed = s.hasher.seed := by
  rw [exec_finalize_hasher hi h]
  exact ⟨phase_initState _, rfl⟩

/-- Settles O42: each event by the core it leaves; the phases after an ABSORB by the sum of the lengths. -/
theorem phaseTransitions : Obligations.PhaseTransitions := by
  intro s t hw h
  refine ⟨fun hin => ?_, fun rest hin => ?_, fun w rest hin => ?_⟩
  · rw [step_idle hin, Host.Outcome.next.injEq] at h
    rw [h]
  · rw [step_hardwareReset hin, Host.Outcome.next.injEq] at h
    rw [← h, hardwareReset_hasher, phase_afterReset]
  have hexec {i : Instr} (hd : decode w = .ok i) : exec i { s with inputs := rest } = .next t :=
    (step_command hin hd).symm.trans h
  have habsorb {b : List Byte} (hd : decode w = .ok (.absorb b)) (hi : s.hasher.inited = true) :
      t.hasher.inited = true ∧ t.hasher.totalLength.toNat = s.hasher.totalLength.toNat + b.length :=
    exec_absorb_totalLength (s := { s with inputs := rest }) hw hi (hexec hd)
  have hinited : phase s.hasher = .empty ∨ phase s.hasher = .short → s.hasher.inited = true := by
    rw [phase_eq_empty_iff, phase_eq_short_iff]
    rintro (⟨hi, -⟩ | ⟨hi, -⟩) <;> exact hi
  refine ⟨fun e hd => ?_, fun seed hd => ?_, fun i hd hne hu => ?_, fun b hd he hb => ?_, fun b hd hes hsum hne => ?_,
    fun b hd hes hsum => ?_, fun b hd hl => ?_, fun hd hu => ?_⟩
  · rw [step_illegal hin hd, Host.Outcome.next.injEq] at h
    rw [← h, raiseError_hasher]
  · rw [exec_init_hasher (hexec hd), phase_initState]
  · rw [step_uninited hin hd hne ((phase_eq_uninit_iff _).1 hu), Host.Outcome.next.injEq] at h
    subst h
    exact ⟨hu, rfl⟩
  · obtain ⟨hi, htotal⟩ := habsorb hd (hinited (.inl he))
    rw [phase_eq_empty_iff] at he ⊢
    exact ⟨hi, by rw [htotal, he.2, hb]; rfl⟩
  · obtain ⟨hi, htotal⟩ := habsorb hd (hinited hes)
    rw [phase_eq_empty_iff, ← List.length_eq_zero_iff] at hne
    rw [phase_eq_short_iff]
    exact ⟨hi, fun h0 => hne ⟨⟨hinited hes, by omega⟩, by omega⟩, by omega⟩
  · obtain ⟨hi, htotal⟩ := habsorb hd (hinited hes)
    exact (phase_eq_long_iff _).2 ⟨hi, by omega⟩
  · rw [phase_eq_long_iff] at hl ⊢
    obtain ⟨hi, htotal⟩ := habsorb hd hl.1
    exact ⟨hi, by omega⟩
  · have hi : s.hasher.inited = true := by
      rwa [ne_eq, phase_eq_uninit_iff, Bool.not_eq_false] at hu
    exact exec_finalize_initialised (s := { s with inputs := rest }) hi (hexec hd)

/-! ### The lanes (R22) -/

/-- A command that changes a lane is an INIT, or the core is initialised and it is a FINALIZE or completes a block. -/
theorem exec_lanes_ne {i : Instr} {s t : State} (hw : s.Inv) (h : exec i s = .next t)
    (hne : t.hasher.lanes ≠ s.hasher.lanes) :
    (∃ seed, i = .init seed) ∨
    (s.hasher.inited = true ∧ (i = .finalize ∨ ∃ b, i = .absorb b ∧ 16 ≤ s.hasher.carryLen.toNat + b.length)) := by
  rcases Classical.em (∃ seed, i = .init seed) with hinit | hinit
  · exact .inl hinit
  have hi : s.hasher.inited = true := by
    by_contra hu
    have hsame := exec_uninited_hasher (fun seed hseed => hinit ⟨seed, hseed⟩) (Bool.not_eq_true _ ▸ hu) h
    exact hne (congrArg Hasher.lanes hsame)
  refine .inr ⟨hi, ?_⟩
  cases i with
  | init seed => exact absurd ⟨seed, rfl⟩ hinit
  | finalize => exact .inl rfl
  | absorb b =>
    refine .inr ⟨b, rfl, ?_⟩
    by_contra hshort
    obtain ⟨-, rfl⟩ := exec_absorb_next hw hi h
    exact hne (absorbed_buffered hw hi (Nat.lt_of_not_le hshort)).1

/-- Settles O45: an idle step and an illegal word change no lane; a command by `exec_lanes_ne`. -/
theorem lanesChangeOnlyWhenTheRulesSay : Obligations.LanesChangeOnlyWhenTheRulesSay := by
  intro s t hw h hne
  rcases step_next_cases h with ⟨-, rfl⟩ | ⟨rest, hin, -⟩ | ⟨w, rest, e, -, -, rfl⟩ | ⟨w, rest, i, hin, hd, hx⟩
  · exact absurd rfl hne
  · exact .inl ⟨rest, hin⟩
  · exact absurd rfl hne
  · rcases exec_lanes_ne (s := { s with inputs := rest }) hw hx hne with ⟨seed, rfl⟩ | ⟨hi, rfl | ⟨b, rfl, hb⟩⟩
    · exact .inr (.inl ⟨w, rest, seed, hin, hd⟩)
    · exact .inr (.inr (.inl ⟨hi, w, rest, hin, hd⟩))
    · exact .inr (.inr (.inr ⟨hi, w, rest, b, hin, hd, hb⟩))

/-! ### The frame -/

/-- Settles O46: the frame of every command, then each command's own elements. -/
theorem commandsWriteOnlyWhatTheirRulesName : Obligations.CommandsWriteOnlyWhatTheirRulesName := by
  intro i s t h
  obtain ⟨hinputs, hreset, hresponse⟩ := exec_next_frame h
  refine ⟨hinputs, hreset, hresponse, fun hne => (exec_keeps_inited_seed hne h).symm,
    fun hne hi => exec_uninited_hasher hne hi h, ?_, ?_, ?_⟩
  · rintro seed rfl
    exact exec_init_hasher h
  · rintro rfl hi
    exact exec_finalize_hasher hi h
  · rintro b rfl hw hi c
    obtain ⟨hb, rfl⟩ := exec_absorb_next hw hi h
    exact ⟨absorbed_totalLength hb, fun hshort => ⟨(absorbed_buffered hw hi hshort).1,
      fun a => readCell_absorbed_outside hw hi hshort⟩, fun _ a => readCell_absorbed_stale s.hasher b⟩

end Sys2Proof.Machine
end

section
/-! PROOF. Programs (30_encoding.md R94, R95; 44_oneshot_and_laws.md R200, R204, R205): the greedy split, and the runs
of chunks between an INIT and a FINALIZE. -/

namespace Sys2Proof.Machine

/-! ### The greedy split (R95) -/

/-- Window `i` of sixteen bytes. -/
theorem beats_eq (b : List Byte) :
    beats b = (List.range ((b.length + 15) / 16)).map (fun i => (b.drop (16 * i)).take 16) := by rfl

theorem beats_length (b : List Byte) : (beats b).length = (b.length + 15) / 16 := by
  rw [beats_eq, List.length_map, List.length_range]

/-- The first `q` windows are the first `16q` bytes. -/
theorem flatten_windows (b : List Byte) (q : Nat) :
    ((List.range q).map (fun i => (b.drop (16 * i)).take 16)).flatten = b.take (16 * q) := by
  induction q with
  | zero => rfl
  | succ q ih =>
    rw [List.range_succ, List.map_append, List.flatten_append, ih, Nat.mul_succ, List.take_add]
    simp

theorem flatten_beats (b : List Byte) : (beats b).flatten = b := by
  rw [beats_eq, flatten_windows]
  exact List.take_of_length_le (by omega)

theorem length_of_mem_beats {b c : List Byte} (hc : c ∈ beats b) : 1 ≤ c.length ∧ c.length ≤ 16 := by
  rw [beats_eq, List.mem_map] at hc
  obtain ⟨i, hi, rfl⟩ := hc
  rw [List.mem_range] at hi
  rw [List.length_take, List.length_drop]
  omega

/-- Settles O50: the windows of sixteen bytes, as many as the bytes need. -/
theorem greedySplitMakesUpTheBytes : Obligations.GreedySplitMakesUpTheBytes := by
  refine fun b => ⟨flatten_beats b, beats_length b, fun c => length_of_mem_beats, fun i hi => ?_⟩
  rw [beats_eq, List.getElem?_map, List.getElem?_range (by omega)]
  rfl

/-! ### Runs that end in a FINALIZE -/

/-- The machine `s` once it has answered the words `answers` and holds `InitState(seed)`, with `rest` left to
present. -/
def afterProgram (s : State) (seed : Word) (answers : List ResponseWord) (rest : List HostEvent) : State where
  hasher := initState seed
  inputs := rest
  responses := s.responses ++ answers
  resetCount := s.resetCount

/-- What a stream sent in `n` chunks and finished by FINALIZE is answered. -/
def streamAnswers (seed : Word) (n : Nat) (d : List Byte) : List ResponseWord :=
  List.replicate n (responseWord .ok 0) ++ [responseWord .digest (xxh32 seed d)]

theorem present_append (is js : List Instr) : present (is ++ js) = present is ++ present js :=
  List.map_append

section
variable {s : State} {chunks : List (List Byte)} {rest : List HostEvent} (hc : ∀ c ∈ chunks, c.length ≤ 16)
  (hlen : chunks.flatten.length < 2 ^ 64)
include hc hlen

/-- From `InitState` the chunks make up a stream, and FINALIZE answers its digest. -/
theorem run_chunks_finalize {seed : Word} (hs : s.hasher = initState seed)
    (hin : s.inputs = present (chunks.map .absorb ++ [.finalize]) ++ rest) :
    run (chunks.length + 1) s =
      .next (afterProgram s seed (streamAnswers seed chunks.length chunks.flatten) rest) := by
  have hw : s.Inv := by
    rw [State.Inv, hs]
    exact initState_wf seed
  have hi : s.hasher.inited = true := hs ▸ rfl
  have hdigest : digest (absorbed s.hasher chunks.flatten) = .ok (xxh32 seed chunks.flatten) := by
    rw [hs, ← streamState_eq_absorbed, digest_streamState seed hlen]
  have hrun := run_chunks (rest := .command (encode .finalize) :: rest) hw hi hc (by rw [hs]; simpa using hlen)
    (by rw [hin, present_append, List.append_assoc]; rfl)
  have hlast : step (afterChunks s chunks.length chunks.flatten (.command (encode .finalize) :: rest)) = .next _ :=
    (step_command rfl (decode_encode (i := .finalize) rfl)).trans
      (exec_finalize_afterChunks (rest := rest) hi hdigest)
  rw [run_add _ 1 hrun, run_succ 0 hlast, run_zero, hs]
  simp [afterProgram, afterChunks, streamAnswers, absorbed, settled, addLength]

/-- From any state: INIT, the chunks, FINALIZE. -/
theorem run_init_chunks_finalize {seed : Word}
    (hin : s.inputs = present (.init seed :: (chunks.map .absorb ++ [.finalize])) ++ rest) :
    run (chunks.length + 2) s =
      .next (afterProgram s seed (streamAnswers seed (chunks.length + 1) chunks.flatten) rest) := by
  have hstep := (step_command hin (decode_encode_init seed)).trans (exec_init seed _)
  rw [run_succ _ hstep, run_chunks_finalize hc hlen rfl rfl]
  simp [afterProgram, streamAnswers, List.replicate_succ]

end

/-! ### The pseudo-operations (R94) -/

theorem expand_absorbN (b : List Byte) : expand (.absorbN b) = (beats b).map .absorb := by rfl

/-- Settles O52: HASH is INIT, the beats of its bytes, FINALIZE. -/
theorem hashProgramAnswersXxh32 : Obligations.HashProgramAnswersXxh32 := by
  refine ⟨fun seed d s rest hlen hin => ⟨rfl, ?_, ?_⟩, by decide⟩
  · rw [expand_absorbN, List.length_map, beats_length]
  · have hprogram : (expand (.hash seed d)).length = (beats d).length + 2 := by simp [expand]
    have hrun := run_init_chunks_finalize (chunks := beats d) (fun _ hc => (length_of_mem_beats hc).2)
      ((flatten_beats d).symm ▸ hlen) hin
    rw [flatten_beats, beats_length, Nat.add_comm ((d.length + 15) / 16) 1] at hrun
    rw [hprogram, beats_length, hrun, List.append_assoc]
    rfl

theorem flatten_flatMap_beats (pieces : List (List Byte)) : (pieces.flatMap beats).flatten = pieces.flatten := by
  induction pieces with
  | nil => rfl
  | cons p ps ih => rw [List.flatMap_cons, List.flatten_append, ih, flatten_beats, List.flatten_cons]

/-- Settles O53: the beats of all the pieces are one list of chunks. -/
theorem anyChunkingGivesTheSameDigest : Obligations.AnyChunkingGivesTheSameDigest := by
  intro seed pieces s rest hlen hin n
  have hcommands : pieces.flatMap (fun p => expand (.absorbN p)) = (pieces.flatMap beats).map .absorb := by
    rw [List.map_flatMap]
    rfl
  have hn : (pieces.flatMap beats).length = n := by
    rw [List.length_flatMap]
    simp only [beats_length]
    rfl
  have hbeat : ∀ c ∈ pieces.flatMap beats, c.length ≤ 16 := by
    intro c hc
    obtain ⟨p, -, hp⟩ := List.mem_flatMap.1 hc
    exact (length_of_mem_beats hp).2
  rw [hcommands] at hin
  have hrun := run_init_chunks_finalize hbeat ((flatten_flatMap_beats pieces).symm ▸ hlen) hin
  rw [hn, flatten_flatMap_beats] at hrun
  exact ⟨_, hrun, rfl, (List.append_assoc _ _ _).symm⟩

/-- Settles O54: the first FINALIZE leaves `InitState` of the seed, where the second stream begins. -/
theorem reuseAfterFinalize : Obligations.ReuseAfterFinalize := by
  intro s chunks rest hw hi hc hlen hin
  obtain ⟨d, hd⟩ := digest_ok hw hi
  have hstep := (step_command hin (decode_encode (i := .finalize) rfl)).trans (exec_finalize_ok hi hd)
  have hrun := (run_succ (chunks.length + 1) hstep).trans (run_chunks_finalize hc hlen rfl rfl)
  exact ⟨_, _, d, hd, hstep, rfl, hrun, rfl, rfl, (List.append_assoc _ _ _).symm⟩

end Sys2Proof.Machine
end
